-- ==== Sys2Proof/Word.lean ====
section
/-! DEFINITION. The word types of the block (spec/00_scope.md R4, R5). -/

namespace Sys2Proof

/-- One byte of the frame buffer, and one command word on the command port (R5, R47). -/
abbrev Byte := BitVec 8

/-- A 24-bit raw code (R4 `RAW_W`). -/
abbrev RawCode := BitVec 24

/-- The 32-bit container of RAW, SRAW, STATUS and FAULT (R13, R15, R16). -/
abbrev Word32 := BitVec 32

/-- The bit pattern of an `FMT` value: binary64 fills it, binary32 has bits 63:32 zero (R89, log entry 12). -/
abbrev FpWord := BitVec 64

/-- The word a host read returns, wide enough for either `FMT` (R17, R89, log entry 12). -/
abbrev PortWord := BitVec 64

end Sys2Proof
end

