-- ==== Sys2Proof/Syntax.lean ====
section
/-! DEFINITION. The five commands of the block (spec/30_encoding.md R48, spec/opcode_table.json). -/

namespace Sys2Proof

/-- The commands. None takes an operand: sources and destinations are fixed (R47). -/
inductive Instr where
  | dec   -- frame decode (R62)
  | sxt   -- sign-extend and convert (R73)
  | cal   -- two-point calibration (R85)
  | ucv   -- unit conversion (R88)
  | conv  -- all four in one step (R100)
  deriving DecidableEq, Repr

end Sys2Proof
end

