-- ==== Sys2Proof/WellFormed.lean ====
section
/-! DEFINITION. When a command word is one of the five legal ones (spec/30_encoding.md R47 to R49). -/

namespace Sys2Proof

/-- The field `RSV`, bits 7:4 of a command word (R47). -/
def CommandWord.rsv (w : Byte) : BitVec 4 := w.extractLsb' 4 4

/-- The field `OP`, bits 3:0 of a command word (R47). -/
def CommandWord.op (w : Byte) : BitVec 4 := w.extractLsb' 0 4

/-- First check of R47: `RSV` must be 0b0000. -/
def CommandWord.rsvIsZero (w : Byte) : Bool := CommandWord.rsv w == 0#4

/-- Second check, R48: the operation codes 0x1 to 0x5 are the assigned ones. -/
def CommandWord.opIsAssigned (w : Byte) : Bool :=
  decide (1 ≤ (CommandWord.op w).toNat ∧ (CommandWord.op w).toNat ≤ 5)

/-- A legal command word (R49: every other word is illegal). -/
def CommandWord.wellFormed (w : Byte) : Bool :=
  CommandWord.rsvIsZero w && CommandWord.opIsAssigned w

/-- Every command is well formed: it has no field a check could refuse (R47). -/
def Instr.wellFormed : Instr → Bool
  | .dec => true
  | .sxt => true
  | .cal => true
  | .ucv => true
  | .conv => true

end Sys2Proof
end

