-- ==== Sys2Proof/Decode.lean ====
section
/-! DEFINITION. Decoding of command words and its inverse (spec/30_encoding.md R47 to R50). -/

namespace Sys2Proof

/-- Why a command word is illegal (R49). -/
inductive IllegalWord where
  | reservedBitsSet      -- `RSV` is not 0
  | unassignedOperation  -- `RSV` is 0 and `OP` is 0x0 or 0x6 to 0xF
  deriving DecidableEq, Repr

/-- The operation a code of the opcode map stands for (R48). -/
def operationOf (op : BitVec 4) : Except IllegalWord Instr :=
  match op.toNat with
  | 1 => .ok .dec
  | 2 => .ok .sxt
  | 3 => .ok .cal
  | 4 => .ok .ucv
  | 5 => .ok .conv
  | _ => .error .unassignedOperation

/-- The command decoder: the whole word is classified, before any operand is looked at (R49, R50). -/
def decodeWord (w : Byte) : Except IllegalWord Instr :=
  if CommandWord.rsv w = 0#4 then operationOf (CommandWord.op w) else .error .reservedBitsSet

/-- The operation code of a command (R48, column OP). -/
def operationCode : Instr → BitVec 4
  | .dec => 0x1#4
  | .sxt => 0x2#4
  | .cal => 0x3#4
  | .ucv => 0x4#4
  | .conv => 0x5#4

/-- The command word of a command: `RSV` = 0 above `OP` (R47). -/
def encode (i : Instr) : Byte := 0#4 ++ operationCode i

/-- The command decoded from the bits `w` of an opcode-table row of `nbits` bits. A command has one
word of 8 bits (R47), so nothing that needs more bits is a command. DEDUCED from R47. -/
def decodeTableWord (nbits w : Nat) : Option Instr :=
  if nbits ≤ 8 ∧ w < 2 ^ nbits then
    match decodeWord (BitVec.ofNat 8 w) with
    | .ok i => some i
    | .error _ => none
  else none

end Sys2Proof
end

