-- ==== Sys2Proof/Config.lean ====
section
/-! DEFINITION. The implementation parameters (spec/00_scope.md R4) and the free values. -/

namespace Sys2Proof

/-- The floating-point format `FMT`. This hardware's is binary32. binary64 is the admitted variant (R4, R89). -/
inductive Format where
  | binary32
  | binary64
  deriving DecidableEq, Repr

/-- The parameters of R4 that the source leaves open or that a model takes as configuration.
Nothing changes them while the block runs. -/
structure Config where
  /-- `FMT`. -/
  fmt : Format
  /-- `RAW_1`, the raw value of the first calibration point, as an `FMT` pattern. -/
  raw1 : FpWord
  /-- `P_1`, its pressure. -/
  p1 : FpWord
  /-- `RAW_2`, the raw value of the second calibration point. -/
  raw2 : FpWord
  /-- `P_2`, its pressure. -/
  p2 : FpWord
  /-- `K_UNIT`, the primary-to-secondary factor (R4, R87). -/
  kUnit : FpWord
  /-- `CAL_FUSED`: the calibration's multiply-add rounds once (R4, R84). -/
  calFused : Bool
  /-- How many device operating modes the build selected (R12(4), R119). DESIGN CHOICE, log entry 14. -/
  modesSelected : Nat
  deriving DecidableEq, Repr

/-- Configuration A of spec/95_test_vectors.md, with this hardware's `FMT`, `K_UNIT` and default
`CAL_FUSED` (R4). DESIGN CHOICE, unsafe: the source gives no calibration point (log entry 3). -/
def Config.exampleA : Config where
  fmt := .binary32
  raw1 := 0x00000000#64
  p1 := 0x00000000#64
  raw2 := 0x49800000#64
  p2 := 0x43800000#64
  kUnit := 0x3DC8D717#64
  calFused := false
  modesSelected := 1

/-- FREE VALUE: the words that reads of invalid registers and of unmapped indices return
(R17, I1), one for each draw. No body: nothing can be proved of a word. Safe, log entry 9. -/
opaque Config.freeWord : Nat → PortWord

/-- FREE VALUE: sign and payload of the NaN an operation gives on these operands (R82 defines no
payload and no canonical NaN). No body. Safe, log entry 10. -/
opaque Config.freeNaN : List FpWord → FpWord

end Sys2Proof
end

