-- ==== Sys2Proof/Machine/Ieee.lean ====
section
/-! DEFINITION. IEEE 754 arithmetic of format `FMT` (spec/42_calibration.md R80 to R83, R89): an
operation is computed exactly in integers and rounded once. The layout, the rounding rule and the
special values are those of IEEE 754, which the spec names and does not define: PRESUMED, log
entry 11.

Every finite value of a format is a whole number of UNITS, the unit being the least positive
subnormal, `2 ^ -149` in binary32 and `2 ^ -1074` in binary64. -/

namespace Sys2Proof

/-- The width of the fraction field: bits 22:0 of binary32 (R13), bits 51:0 of binary64. -/
def Format.fracBits : Format → Nat
  | .binary32 => 23
  | .binary64 => 52

/-- The width of the biased exponent field: bits 30:23 of binary32 (R13), bits 62:52 of binary64. -/
def Format.expBits : Format → Nat
  | .binary32 => 8
  | .binary64 => 11

/-- The width of a pattern. -/
def Format.width (f : Format) : Nat := 1 + f.expBits + f.fracBits

/-- The unit is `2 ^ -unitBits`: exponent bias less one, plus the fraction bits. -/
def Format.unitBits : Format → Nat
  | .binary32 => 149
  | .binary64 => 1074

/-- The weight of the sign bit in a pattern. -/
def Format.signWeight (f : Format) : Nat := 2 ^ (f.expBits + f.fracBits)

/-- The pattern of infinity without its sign: exponent field all ones, fraction 0. -/
def Format.infMagnitude (f : Format) : Nat := (2 ^ f.expBits - 1) * 2 ^ f.fracBits

end Sys2Proof

namespace Sys2Proof.Machine

/-- The sign bit of a pattern. -/
def fpNegative (f : Format) (w : FpWord) : Bool := w.getLsbD (f.expBits + f.fracBits)

/-- A pattern without its sign bit: exponent field above fraction field. -/
def fpMagnitude (f : Format) (w : FpWord) : Nat := w.toNat % f.signWeight

/-- Whether a 64-bit container holds a pattern of the format: the bits above its width are 0. -/
def isPattern (f : Format) (w : FpWord) : Bool := decide (w.toNat < 2 ^ f.width)

/-- Neither NaN nor infinite. -/
def isFinite (f : Format) (w : FpWord) : Bool := decide (fpMagnitude f w < f.infMagnitude)

/-- Exponent field all ones, fraction not 0. -/
def isNaN (f : Format) (w : FpWord) : Bool := decide (f.infMagnitude < fpMagnitude f w)

/-- The value, in units, of a finite magnitude: subnormal when the exponent field is 0, else with
the hidden bit, scaled by the exponent. -/
def magnitudeUnits (f : Format) (p : Nat) : Nat :=
  if p / 2 ^ f.fracBits = 0 then p % 2 ^ f.fracBits
  else (2 ^ f.fracBits + p % 2 ^ f.fracBits) * 2 ^ (p / 2 ^ f.fracBits - 1)

/-- The exact value of a finite pattern, in units. -/
def fpUnits (f : Format) (w : FpWord) : Int :=
  if fpNegative f w then -(magnitudeUnits f (fpMagnitude f w) : Int)
  else (magnitudeUnits f (fpMagnitude f w) : Int)

/-- The pattern with the given sign and magnitude. -/
def fpPack (f : Format) (neg : Bool) (magnitude : Nat) : FpWord :=
  BitVec.ofNat 64 ((if neg then f.signWeight else 0) + magnitude)

/-- `n / d` to the nearest whole number, a tie to the even one. -/
def roundHalfEven (n d : Nat) : Nat :=
  if 2 * (n % d) < d then n / d
  else if d < 2 * (n % d) then n / d + 1
  else n / d + n / d % 2

/-- How many binades the rational `n / d`, in units, lies above the one whose quantum is one unit. -/
def quantumExponent (f : Format) (n d : Nat) : Nat := Nat.log2 (n / d) - f.fracBits

/-- The magnitude nearest to `n / d` units by roundTiesToEven, with gradual underflow, and infinity
at or beyond the overflow threshold (R81). A quantum carries into the exponent field by itself. -/
def roundMagnitude (f : Format) (n d : Nat) : Nat :=
  min f.infMagnitude
    (quantumExponent f n d * 2 ^ f.fracBits + roundHalfEven n (d * 2 ^ quantumExponent f n d))

/-- `fl` of the exact value `v / d` units (R6, R81). `zeroNeg` is the sign of an exact zero (R83). -/
def fl (f : Format) (zeroNeg : Bool) (v : Int) (d : Nat) : FpWord :=
  fpPack f (if v = 0 then zeroNeg else decide (v < 0)) (roundMagnitude f v.natAbs d)

/-- The infinity of a sign. -/
def fpInfinity (f : Format) (neg : Bool) : FpWord := fpPack f neg f.infMagnitude

/-- The zero of a sign. -/
def fpZero (f : Format) (neg : Bool) : FpWord := fpPack f neg 0

/-- A quiet NaN whose sign and payload are the free value `Config.freeNaN` (log entry 10). -/
def nanOf (f : Format) (operands : List FpWord) : FpWord :=
  fpPack f ((Config.freeNaN operands).getLsbD 63)
    (f.infMagnitude + 2 ^ (f.fracBits - 1) + (Config.freeNaN operands).toNat % 2 ^ (f.fracBits - 1))

/-- What a pattern stands for. -/
inductive FpClass where
  | nan
  | infinite (neg : Bool)
  | finite (neg : Bool) (units : Int)
  deriving DecidableEq, Repr

/-- The class of a pattern. -/
def classify (f : Format) (w : FpWord) : FpClass :=
  if isNaN f w then .nan
  else if isFinite f w then .finite (fpNegative f w) (fpUnits f w)
  else .infinite (fpNegative f w)

/-- `-w`. -/
def fpNegate (f : Format) (w : FpWord) : FpWord := w ^^^ BitVec.ofNat 64 f.signWeight

/-- `fl(x + y)`. An exact zero sum is +0 unless both operands are negative (R83). -/
def fpAdd (f : Format) (x y : FpWord) : FpWord :=
  match classify f x, classify f y with
  | .finite a m, .finite b n => fl f (a && b) (m + n) 1
  | .finite _ _, .infinite b => fpInfinity f b
  | .infinite a, .finite _ _ => fpInfinity f a
  | .infinite a, .infinite b => if a = b then fpInfinity f a else nanOf f [x, y]
  | .nan, _ => nanOf f [x, y]
  | .finite _ _, .nan => nanOf f [x, y]
  | .infinite _, .nan => nanOf f [x, y]

/-- `fl(x - y)`. -/
def fpSub (f : Format) (x y : FpWord) : FpWord := fpAdd f x (fpNegate f y)

/-- `fl(x * y)`. The sign is the exclusive or of the operands' signs, of a zero too (R83). -/
def fpMul (f : Format) (x y : FpWord) : FpWord :=
  match classify f x, classify f y with
  | .finite a m, .finite b n => fl f (a ^^ b) (m * n) (2 ^ f.unitBits)
  | .finite a m, .infinite b => if m = 0 then nanOf f [x, y] else fpInfinity f (a ^^ b)
  | .infinite a, .finite b n => if n = 0 then nanOf f [x, y] else fpInfinity f (a ^^ b)
  | .infinite a, .infinite b => fpInfinity f (a ^^ b)
  | .nan, _ => nanOf f [x, y]
  | .finite _ _, .nan => nanOf f [x, y]
  | .infinite _, .nan => nanOf f [x, y]

/-- `fl(x / y)`. A finite value other than 0 over 0 is an infinity, 0 over 0 a NaN. -/
def fpDiv (f : Format) (x y : FpWord) : FpWord :=
  match classify f x, classify f y with
  | .finite a m, .finite b n =>
    if n = 0 then (if m = 0 then nanOf f [x, y] else fpInfinity f (a ^^ b))
    else fl f (a ^^ b) (m * n.sign * 2 ^ f.unitBits) n.natAbs
  | .finite a _, .infinite b => fpZero f (a ^^ b)
  | .infinite a, .finite b _ => fpInfinity f (a ^^ b)
  | .infinite _, .infinite _ => nanOf f [x, y]
  | .nan, _ => nanOf f [x, y]
  | .finite _ _, .nan => nanOf f [x, y]
  | .infinite _, .nan => nanOf f [x, y]

/-- The sign of a class (of a NaN: false, never used). -/
def FpClass.negative : FpClass → Bool
  | .nan => false
  | .infinite a => a
  | .finite a _ => a

/-- Whether a class is an infinity. -/
def FpClass.isInfinite : FpClass → Bool
  | .nan => false
  | .infinite _ => true
  | .finite _ _ => false

/-- Whether `x * y` has no value: an operand is a NaN, or 0 meets an infinity. -/
def FpClass.productInvalid : FpClass → FpClass → Bool
  | .nan, _ => true
  | .finite _ _, .nan => true
  | .infinite _, .nan => true
  | .finite _ m, .infinite _ => decide (m = 0)
  | .infinite _, .finite _ n => decide (n = 0)
  | .finite _ _, .finite _ _ => false
  | .infinite _, .infinite _ => false

/-- `x * y + z` where not all three are finite. -/
def fmaSpecial (f : Format) (operands : List FpWord) (cx cy cz : FpClass) : FpWord :=
  if cx.productInvalid cy || cz == .nan then nanOf f operands
  else if cx.isInfinite || cy.isInfinite then
    if cz.isInfinite && (cz.negative != (cx.negative ^^ cy.negative)) then nanOf f operands
    else fpInfinity f (cx.negative ^^ cy.negative)
  else fpInfinity f cz.negative

/-- `fl(x * y + z)`, one rounding: the fused multiply-add (R84). -/
def fpFma (f : Format) (x y z : FpWord) : FpWord :=
  match classify f x, classify f y, classify f z with
  | .finite a m, .finite b n, .finite c k =>
    fl f ((a ^^ b) && c) (m * n + k * 2 ^ f.unitBits) (2 ^ f.unitBits)
  | cx, cy, cz => fmaSpecial f [x, y, z] cx cy cz

/-- `i2f(n)`: the integer converted to `FMT`. Zero converts to +0 (R6, R72). -/
def i2f (f : Format) (n : Int) : FpWord := fl f false (n * 2 ^ f.unitBits) 1

end Sys2Proof.Machine
end

