-- ==== Sys2Proof/Machine/Numerics.lean ====
section
/-! DEFINITION. The calibration line and the unit factor (spec/42_calibration.md R84, R87,
spec/10_state.md R11), and which configurations are admitted (R12). -/

namespace Sys2Proof.Machine

/-- `SLOPE = fl( fl(P_2 - P_1) / fl(RAW_2 - RAW_1) )` (R11). -/
def slope (c : Config) : FpWord :=
  fpDiv c.fmt (fpSub c.fmt c.p2 c.p1) (fpSub c.fmt c.raw2 c.raw1)

/-- `d = fl(x - RAW_1)` (R84). -/
def offsetFromFirst (c : Config) (x : FpWord) : FpWord := fpSub c.fmt x c.raw1

/-- `cal(x)` (R84): two roundings, or one where `CAL_FUSED`. No clamping and no range check. -/
def cal (c : Config) (x : FpWord) : FpWord :=
  if c.calFused then fpFma c.fmt (slope c) (offsetFromFirst c x) c.p1
  else fpAdd c.fmt (fpMul c.fmt (slope c) (offsetFromFirst c x)) c.p1

/-- `ucv(p) = fl(p * K_UNIT)` (R87). -/
def ucv (c : Config) (p : FpWord) : FpWord := fpMul c.fmt p c.kUnit

/-- `K_UNIT`, the `FMT` value nearest 0.0980665 (R4, R87, R89). -/
def unitFactor : Format → FpWord
  | .binary32 => 0x3DC8D717#64
  | .binary64 => 0x3FB91AE2DA554B8C#64

/-- A finite `FMT` value in its container. -/
def isFiniteValue (f : Format) (w : FpWord) : Bool := isPattern f w && isFinite f w

end Sys2Proof.Machine

namespace Sys2Proof

open Sys2Proof.Machine

/-- R12(1): the calibration points are finite `FMT` values. -/
def Config.pointsAreFinite (c : Config) : Bool :=
  isFiniteValue c.fmt c.raw1 && isFiniteValue c.fmt c.p1 && isFiniteValue c.fmt c.raw2 && isFiniteValue c.fmt c.p2

/-- R12(2): `RAW_1 != RAW_2` as numbers, so that +0 and -0 count as equal. -/
def Config.rawsDiffer (c : Config) : Bool := decide (fpUnits c.fmt c.raw1 ≠ fpUnits c.fmt c.raw2)

/-- R12(3): `SLOPE` is finite. -/
def Config.slopeIsFinite (c : Config) : Bool := isFinite c.fmt (slope c)

/-- R12(4): exactly one device operating mode is selected. -/
def Config.oneMode (c : Config) : Bool := decide (c.modesSelected = 1)

/-- R12(5): `K_UNIT` is the value of R4 for `FMT`. -/
def Config.unitFactorIsRight (c : Config) : Bool := decide (c.kUnit = unitFactor c.fmt)

/-- A configuration the model has a block for (R12). -/
def Config.admitted (c : Config) : Bool :=
  Config.pointsAreFinite c && Config.rawsDiffer c && Config.slopeIsFinite c && Config.oneMode c
    && Config.unitFactorIsRight c

end Sys2Proof
end

