-- ==== Sys2Proof/Machine/Memory.lean ====
section
/-! DEFINITION. The block's one memory, the frame buffer (spec/20_memory.md R30, R31), as a list of
cells in one canonical form. An index is a `Fin 8`: an access outside 0 to 7 cannot be written down. -/

namespace Sys2Proof.Machine

/-- The frame buffer: (index, byte) pairs (log entry 6). -/
abbrev Memory := List Host.Cell

/-- `FRAME_LEN` (R4). -/
def frameLen : Nat := 8

/-- What an unlisted index reads as. DESIGN CHOICE, unsafe: R20 gives FRAME no value after reset,
and no rule reads it before an XFER_DONE has written all of it (log entry 6). -/
def Memory.unlisted : Byte := 0x00#8

/-- The canonical form: indices strictly rising and below 8, no entry equal to what an unlisted index reads as. -/
def Memory.wf : Memory → Bool
  | [] => true
  | (k, v) :: rest =>
    decide (k < frameLen) && decide (v ≠ Memory.unlisted) && rest.all (fun c => decide (k < c.1)) && Memory.wf rest

/-- The byte at a key. -/
def Memory.lookup (a : Nat) : Memory → Byte
  | [] => Memory.unlisted
  | (k, v) :: rest => if a = k then v else Memory.lookup a rest

/-- One more entry in front, unless it says what no entry says. -/
def Memory.cons (a : Nat) (b : Byte) (m : Memory) : Memory :=
  if b = Memory.unlisted then m else (a, b) :: m

/-- The memory with one key set, the order kept. -/
def Memory.update (a : Nat) (b : Byte) : Memory → Memory
  | [] => Memory.cons a b []
  | (k, v) :: rest =>
    if a < k then Memory.cons a b ((k, v) :: rest)
    else if a = k then Memory.cons a b rest
    else (k, v) :: Memory.update a b rest

/-- `MemRead(i, 1)` of R6: `FRAME[i]`. -/
def Memory.read (m : Memory) (i : Fin 8) : Byte := Memory.lookup i.val m

/-- `FRAME[i] <- b`. -/
def Memory.write (m : Memory) (i : Fin 8) (b : Byte) : Memory := Memory.update i.val b m

/-- The indices of a frame, in the order received (R32). -/
def frameIndices : List (Fin 8) := [0, 1, 2, 3, 4, 5, 6, 7]

/-- `for i in 0..7: FRAME[i] <- bytes[i]` (R34). -/
def Memory.writeFrame (m : Memory) (bytes : List Byte) : Memory :=
  frameIndices.foldl (fun acc i => acc.write i (bytes.getD i.val Memory.unlisted)) m

end Sys2Proof.Machine
end

