-- ==== Sys2Proof/Machine/State.lean ====
section
/-! DEFINITION. The state of the block (spec/10_state.md R10), the inputs not yet performed and the
read port's output, as plain data; what a step can stop with; the state after reset (R20, R130). -/

namespace Sys2Proof.Machine

/-- `FSTATE`, the transfer state of the frame buffer (R10, R19). -/
inductive FState where
  | empty
  | inFlight
  | loaded
  deriving DecidableEq, Repr

/-- `CAUSE`, the latched fault's cause (spec/60_exceptions.md R111). The codes 6 to 15 are never produced. -/
inductive Cause where
  | none
  | frameLength
  | frameInFlight
  | illegalCommand
  | noOperand
  | protocol
  deriving DecidableEq, Repr

/-- One step of the host: a command word on the command port, or a read of the read port (R39, R51). -/
inductive HostStep where
  | command (w : Byte)
  | read (index : Nat)
  deriving DecidableEq, Repr

/-- One event of the environment (spec/20_memory.md R33, R34). -/
inductive EnvEvent where
  | xferStart
  | xferDone (bytes : List Byte)
  deriving DecidableEq, Repr

/-- The three agents that act on the block (R39). -/
inductive Agent where
  | host
  | environment
  | reset
  deriving DecidableEq, Repr

/-- One step of the block (R39), or a turn in which nothing arrives (log entry 2). -/
inductive Event where
  | idle
  | reset
  | command (w : Byte)
  | read (index : Nat)
  | xferStart
  | xferDone (bytes : List Byte)
  deriving DecidableEq, Repr

/-- The whole state. The first thirteen fields are R10's. The others are the model's own. -/
structure State where
  /-- `FSTATE`. -/
  fstate : FState
  /-- `FRAME[0..7]`. -/
  frame : Memory
  /-- `RAW`. -/
  raw : Word32
  /-- `RV`: RAW valid. -/
  rv : Bool
  /-- `SRAW`, a 32-bit two's-complement value. -/
  sraw : Word32
  /-- `SVAL`, an `FMT` pattern. -/
  sval : FpWord
  /-- `SV`: SRAW and SVAL valid. -/
  sv : Bool
  /-- `PRI`, an `FMT` pattern. -/
  pri : FpWord
  /-- `PV`: PRI valid. -/
  pv : Bool
  /-- `SEC`, an `FMT` pattern. -/
  sec : FpWord
  /-- `UV`: SEC valid. -/
  uv : Bool
  /-- `FT`: a fault is latched. -/
  ft : Bool
  /-- `CAUSE`. -/
  cause : Cause
  /-- The configuration (R4): no step changes it. Log entry 3. -/
  cfg : Config
  /-- The host's steps not yet performed, oldest first. Log entry 1. -/
  hostQueue : List HostStep
  /-- The environment's events not yet performed, oldest first. Log entry 1. -/
  envQueue : List EnvEvent
  /-- Whose turn comes next, first turn first: the interleaving of R39. Log entry 1. -/
  schedule : List Agent
  /-- The word the last host read returned. Log entry 13. -/
  readOut : Option PortWord
  /-- How many unspecified words have been drawn. Log entry 9. -/
  draws : Nat
  deriving DecidableEq, Repr

/-- A fault that stops the machine. There is none: the spec's faults are latched in FT and CAUSE
and leave a next state (R110 to R113), so nobody raises one (log entry 8). -/
inductive Fault where
  deriving DecidableEq, Repr

/-- A step for which the model has no meaning. -/
inductive Refusal where
  /-- Raised by an arm of `exec` for an instruction without a meaning. No arm does. Safe. -/
  | notModelled (mnemonic : String)
  /-- Raised by `step` when the configuration is not well formed: R12 says the model has no block
  for it. Safe (log entry 4). -/
  | configurationNotAdmitted
  deriving DecidableEq, Repr

/-- The machine right after reset, which is also the power-on state (R20, R130). Nothing has
arrived. The data registers and FRAME, which R20 leaves unspecified, hold the values of log
entries 5 and 6, and the configuration is that of log entry 3. -/
def State.reset : State where
  fstate := .empty
  frame := []
  raw := 0#32
  rv := false
  sraw := 0#32
  sval := 0#64
  sv := false
  pri := 0#64
  pv := false
  sec := 0#64
  uv := false
  ft := false
  cause := .none
  cfg := Config.exampleA
  hostQueue := []
  envQueue := []
  schedule := []
  readOut := none
  draws := 0

end Sys2Proof.Machine
end

