-- ==== Sys2Proof/Machine/Ops.lean ====
section
/-! DEFINITION. The named operations over the state: one write per result register with its valid
bit (spec/10_state.md R10, R14), latching a fault (spec/60_exceptions.md R110 to R116), the reset
event (spec/70_reset_and_hazards.md R130, R131), and taking an input. -/

namespace Sys2Proof.Machine

/-- `RAW <- v; RV <- 1` (R62). -/
def State.setRaw (s : State) (v : Word32) : State := { s with raw := v, rv := true }

/-- `SRAW <- n; SVAL <- v; SV <- 1`: always written together (R10, R73). -/
def State.setSigned (s : State) (n : Word32) (v : FpWord) : State :=
  { s with sraw := n, sval := v, sv := true }

/-- `PRI <- p; PV <- 1` (R85). -/
def State.setPrimary (s : State) (p : FpWord) : State := { s with pri := p, pv := true }

/-- `SEC <- u; UV <- 1` (R88). -/
def State.setSecondary (s : State) (u : FpWord) : State := { s with sec := u, uv := true }

/-- `FSTATE <- v`. -/
def State.setTransfer (s : State) (v : FState) : State := { s with fstate := v }

/-- `FRAME <- m`. -/
def State.setFrame (s : State) (m : Memory) : State := { s with frame := m }

/-- `FT <- 1; CAUSE <- c`. -/
def State.latch (s : State) (c : Cause) : State := { s with ft := true, cause := c }

/-- The word on the read port, and how many unspecified words have been drawn by now (R17). -/
def State.answerRead (s : State) (w : PortWord) (draws : Nat) : State :=
  { s with readOut := some w, draws := draws }

/-- What is left to arrive. -/
def State.setInputs (s : State) (host : List HostStep) (env : List EnvEvent) (turns : List Agent) : State :=
  { s with hostQueue := host, envQueue := env, schedule := turns }

/-- `raise Fault(c)` (R6, R112): THE taking of a fault, shared by every command and event. While a
fault is latched it has no effect, so only the first cause since reset is recorded (R113). There is
no return from a fault but reset (R117). -/
def raiseFault (c : Cause) (s : State) : State := if s.ft then s else s.latch c

/-- What every command and every environment event does first: nothing at all while a fault is
latched (R113, R114(1)). -/
def unlessHalted (s done : State) : State := if s.ft then s else done

/-- The reset event (R130): every piece of the block's state takes its value of R20. It neither
stops the environment nor drops the host's steps (R131) and leaves the configuration alone (R20). The
data registers and FRAME, unspecified by R20, take the values they have in `State.reset`: DESIGN
CHOICE, unsafe, log entry 7. -/
def resetBlock (s : State) : State :=
  { State.reset with
    cfg := s.cfg, hostQueue := s.hostQueue, envQueue := s.envQueue, schedule := s.schedule,
    readOut := s.readOut, draws := s.draws }

/-- The step that arrives next: the first of the agent whose turn it is (R39). With no turn left, or
an agent that has nothing to do, nothing arrives (log entry 2). -/
def nextEvent (s : State) : Event :=
  match s.schedule with
  | [] => .idle
  | .reset :: _ => .reset
  | .host :: _ =>
    match s.hostQueue with
    | [] => .idle
    | .command w :: _ => .command w
    | .read index :: _ => .read index
  | .environment :: _ =>
    match s.envQueue with
    | [] => .idle
    | .xferStart :: _ => .xferStart
    | .xferDone bytes :: _ => .xferDone bytes

/-- The state with that turn, and the step that arrived in it, taken off. -/
def takeEvent (s : State) : State :=
  match s.schedule with
  | [] => s
  | .reset :: turns => s.setInputs s.hostQueue s.envQueue turns
  | .host :: turns => s.setInputs s.hostQueue.tail s.envQueue turns
  | .environment :: turns => s.setInputs s.hostQueue s.envQueue.tail turns

end Sys2Proof.Machine
end

