-- ==== Sys2Proof/Machine/Operands.lean ====
section
/-! DEFINITION. The operand forms: the frame as a raw code (spec/40_frame_decoder.md R60, R61,
spec/30_encoding.md R45, R46), a raw code as a signed value (spec/41_sign_converter.md R70 to R72),
and the two source conditions of a command (R38, R62, R14). -/

namespace Sys2Proof.Machine

/-- `nib(b) = { b[7], b[5], b[3], b[1] }` (R60). -/
def nib (b : Byte) : BitVec 4 :=
  b.extractLsb' 7 1 ++ b.extractLsb' 5 1 ++ b.extractLsb' 3 1 ++ b.extractLsb' 1 1

/-- `decode(F)` (R61): the nibbles of bytes 1 to 6, most significant first. Bytes 0 and 7 are not read. -/
def decodeFrame (m : Memory) : RawCode :=
  nib (m.read 1) ++ nib (m.read 2) ++ nib (m.read 3) ++ nib (m.read 4) ++ nib (m.read 5) ++ nib (m.read 6)

/-- `spread(n) = (n[3] << 7) | (n[2] << 5) | (n[1] << 3) | (n[0] << 1)` (R46). -/
def spread (n : BitVec 4) : Byte :=
  n.extractLsb' 3 1 ++ 0#1 ++ n.extractLsb' 2 1 ++ 0#1 ++ n.extractLsb' 1 1 ++ 0#1 ++ n.extractLsb' 0 1 ++ 0#1

/-- The canonical frame of a raw code, ignored bits 0 (R46). -/
def canonicalFrame (r : RawCode) : List Byte :=
  [0#8, spread (r.extractLsb' 20 4), spread (r.extractLsb' 16 4), spread (r.extractLsb' 12 4),
    spread (r.extractLsb' 8 4), spread (r.extractLsb' 4 4), spread (r.extractLsb' 0 4), 0#8]

/-- `RAW[23:0]`, the only bits of RAW that SXT reads (R70). -/
def codeOf (raw : Word32) : RawCode := raw.extractLsb' 0 24

/-- `zext_32` of a raw code, what DEC writes (R62). -/
def rawWord (r : RawCode) : Word32 := r.setWidth 32

/-- `sext_code(r)` (R70): bits 31:24 set to 1 if bit 23 is set. -/
def sextCode (r : RawCode) : Word32 :=
  if r.getLsbD 23 then rawWord r ||| 0xFF000000#32 else rawWord r

/-- `sint(r) = to_int32(sext_code(r))` (R71). -/
def sint (r : RawCode) : Int := (sextCode r).toInt

/-- `sval(r) = i2f(sint(r))` (R72). -/
def svalOf (f : Format) (r : RawCode) : FpWord := i2f f (sint r)

/-- The source condition of DEC and CONV: a loaded frame. In flight it cannot be read, and before the
first frame there is none (R38, R62). `done` is the state the command leaves when it may run. -/
def needsFrame (s done : State) : State :=
  unlessHalted s
    (match s.fstate with
     | .inFlight => raiseFault .frameInFlight s
     | .empty => raiseFault .noOperand s
     | .loaded => done)

/-- The source condition of SXT, CAL and UCV: the source register has been written since reset (R14). -/
def needsValid (valid : Bool) (s done : State) : State :=
  unlessHalted s (if valid then done else raiseFault .noOperand s)

end Sys2Proof.Machine
end

