-- ==== Sys2Proof/Machine/Calibration.lean ====
section
/-! DEFINITION. CAL and UCV, the commands of the Calibration Mapper and the Unit Converter
(spec/42_calibration.md R85, R88). -/

namespace Sys2Proof.Machine

/-- CAL (R85): `PRI <- cal(SVAL); PV <- 1`. -/
def execCal (s : State) : Host.Outcome State Fault Refusal :=
  .next (needsValid s.sv s (s.setPrimary (cal s.cfg s.sval)))

/-- UCV (R88): `SEC <- ucv(PRI); UV <- 1`. -/
def execUcv (s : State) : Host.Outcome State Fault Refusal :=
  .next (needsValid s.pv s (s.setSecondary (ucv s.cfg s.pri)))

end Sys2Proof.Machine
end

