-- ==== Sys2Proof/Machine/Conversion.lean ====
section
/-! DEFINITION. CONV, the whole conversion in one step (spec/43_conversion_sequence.md R100). -/

namespace Sys2Proof.Machine

/-- The four results of the raw code `r`, written together with their valid bits (R100). -/
def State.setResults (s : State) (r : RawCode) : State :=
  (((s.setRaw (rawWord r)).setSigned (sextCode r) (svalOf s.cfg.fmt r)).setPrimary
    (cal s.cfg (svalOf s.cfg.fmt r))).setSecondary (ucv s.cfg (cal s.cfg (svalOf s.cfg.fmt r)))

/-- CONV (R100): DEC, SXT, CAL and UCV of the loaded frame in one step. -/
def execConv (s : State) : Host.Outcome State Fault Refusal :=
  .next (needsFrame s (s.setResults (decodeFrame s.frame)))

end Sys2Proof.Machine
end

