-- ==== Sys2Proof/Machine/Decoder.lean ====
section
/-! DEFINITION. DEC, the Frame Decoder's command (spec/40_frame_decoder.md R62). -/

namespace Sys2Proof.Machine

/-- DEC (R62): `RAW <- zext_32(decode(FRAME)); RV <- 1`. -/
def execDec (s : State) : Host.Outcome State Fault Refusal :=
  .next (needsFrame s (s.setRaw (rawWord (decodeFrame s.frame))))

end Sys2Proof.Machine
end

