-- ==== Sys2Proof/Machine/SignConverter.lean ====
section
/-! DEFINITION. SXT, the Signed Converter's command (spec/41_sign_converter.md R73). -/

namespace Sys2Proof.Machine

/-- SXT (R73): `SRAW <- sext_code(RAW[23:0]); SVAL <- i2f(sint(RAW[23:0])); SV <- 1`. -/
def execSxt (s : State) : Host.Outcome State Fault Refusal :=
  .next (needsValid s.rv s (s.setSigned (sextCode (codeOf s.raw)) (svalOf s.cfg.fmt (codeOf s.raw))))

end Sys2Proof.Machine
end

