-- ==== Sys2Proof/Machine/Dispatch.lean ====
section
/-! DEFINITION. One arm per command, each one call of its meaning. -/

namespace Sys2Proof.Machine

def exec (i : Instr) (s : State) : Host.Outcome State Fault Refusal :=
  match i with
  | .dec => Sys2Proof.Machine.execDec s
  | .sxt => Sys2Proof.Machine.execSxt s
  | .cal => Sys2Proof.Machine.execCal s
  | .ucv => Sys2Proof.Machine.execUcv s
  | .conv => Sys2Proof.Machine.execConv s

end Sys2Proof.Machine
end

