-- ==== Sys2Proof/Machine/Flags.lean ====
section
/-! DEFINITION. The flags as the host sees them: STATUS (spec/10_state.md R15) and FAULT (R16),
computed at the read. The block has no other flag: no condition codes, no IEEE flags (R15, R81). -/

namespace Sys2Proof.Machine

/-- STATUS bit 0: `FSTATE = Loaded`. -/
def statusLoaded (s : State) : Bool := decide (s.fstate = .loaded)

/-- STATUS bit 1: `FSTATE = InFlight`. -/
def statusInFlight (s : State) : Bool := decide (s.fstate = .inFlight)

/-- STATUS (R15): `FT UV PV SV RV IF FL` in bits 6 to 0, bits 31:7 read as 0. -/
def status (s : State) : Word32 :=
  0#25 ++ BitVec.ofBool s.ft ++ BitVec.ofBool s.uv ++ BitVec.ofBool s.pv ++ BitVec.ofBool s.sv
    ++ BitVec.ofBool s.rv ++ BitVec.ofBool (statusInFlight s) ++ BitVec.ofBool (statusLoaded s)

/-- The 4-bit code of a cause (spec/60_exceptions.md R111). -/
def causeCode : Cause → BitVec 4
  | .none => 0#4
  | .frameLength => 1#4
  | .frameInFlight => 2#4
  | .illegalCommand => 3#4
  | .noOperand => 4#4
  | .protocol => 5#4

/-- FAULT (R16): `CAUSE` in bits 3:0, bits 31:4 read as 0. -/
def faultWord (s : State) : Word32 := 0#28 ++ causeCode s.cause

end Sys2Proof.Machine
end

