-- ==== Sys2Proof/Machine/Events.lean ====
section
/-! DEFINITION. The steps of the block: a command word (spec/30_encoding.md R49, R50), the
environment's events (spec/20_memory.md R33 to R35), a host read (spec/10_state.md R17), and the
turn that performs the one that arrives (R39). -/

namespace Sys2Proof.Machine

/-- XFER_START (R33). The bytes of FRAME do not change, only their being readable. -/
def xferStart (s : State) : State :=
  unlessHalted s
    (match s.fstate with
     | .inFlight => raiseFault .protocol s
     | .empty => s.setTransfer .inFlight
     | .loaded => s.setTransfer .inFlight)

/-- XFER_DONE of these bytes (R34, R35): the protocol is checked before the length (R114(4)). -/
def xferDone (bytes : List Byte) (s : State) : State :=
  unlessHalted s
    (match s.fstate with
     | .empty => raiseFault .protocol s
     | .loaded => raiseFault .protocol s
     | .inFlight =>
       if bytes.length = frameLen then (s.setFrame (s.frame.writeFrame bytes)).setTransfer .loaded
       else raiseFault .frameLength s)

/-- The word R17 gives an index, where it gives one. -/
def specifiedWord (s : State) (index : Nat) : Option PortWord :=
  match index with
  | 0 => if s.rv then some (s.raw.setWidth 64) else none
  | 1 => if s.sv then some (s.sraw.setWidth 64) else none
  | 2 => if s.sv then some s.sval else none
  | 3 => if s.pv then some s.pri else none
  | 4 => if s.uv then some s.sec else none
  | 5 => some ((status s).setWidth 64)
  | 6 => some ((faultWord s).setWidth 64)
  | _ => none

/-- How wide the word of an index is: 32 bits, but an `FMT` pattern has the width of `FMT` (R17,
R89). An unmapped index draws a word of the width of `FMT`: DESIGN CHOICE, log entry 9. -/
def wordWidth (f : Format) (index : Nat) : Nat :=
  if index ≤ 1 then 32 else f.width

/-- An unspecified word: the free value of this draw, cut to the width of the index's word (R17, I1). -/
def unspecifiedWord (s : State) (index : Nat) : PortWord :=
  BitVec.ofNat 64 ((Config.freeWord s.draws).toNat % 2 ^ wordWidth s.cfg.fmt index)

/-- A host read (R17): it answers, even while a fault is latched, and changes nothing of the block. -/
def readPort (index : Nat) (s : State) : State :=
  match specifiedWord s index with
  | some w => s.answerRead w s.draws
  | none => s.answerRead (unspecifiedWord s index) (s.draws + 1)

/-- A command word (R49, R50): an illegal one latches ILLEGAL_COMMAND, a legal one is executed. -/
def runCommand (w : Byte) (s : State) : Host.Outcome State Fault Refusal :=
  match decodeWord w with
  | .ok i => exec i s
  | .error _ => .next (unlessHalted s (raiseFault .illegalCommand s))

/-- Perform the step that arrived (R39). -/
def perform (e : Event) (s : State) : Host.Outcome State Fault Refusal :=
  match e with
  | .idle => .next s
  | .reset => .next (resetBlock s)
  | .command w => runCommand w s
  | .read index => .next (readPort index s)
  | .xferStart => .next (xferStart s)
  | .xferDone bytes => .next (xferDone bytes s)

/-- One turn. A configuration that is not well formed is refused: the model has no block for it (R12, log entry 4). -/
def turn (s : State) : Host.Outcome State Fault Refusal :=
  if Config.admitted s.cfg then perform (nextEvent s) (takeEvent s)
  else .refused .configurationNotAdmitted

end Sys2Proof.Machine
end

