-- ==== Sys2Proof/Machine/Step.lean ====
section
/-! DEFINITION. The step of the machine, and how a command word is put on the command port. -/

namespace Sys2Proof.Machine

/-- One step (R39). -/
def step (s : State) : Host.Outcome State Fault Refusal := Sys2Proof.Machine.turn s

/-- The state with a command word as the host's next step and the next turn the host's, so that the
very next step executes it. Commands come from the host: there is no program counter and no
instruction memory (R18, R43, log entry 15). -/
def State.withFetchWord (s : State) (nbits w : Nat) : State :=
  s.setInputs (.command (BitVec.ofNat 8 (w % 2 ^ nbits)) :: s.hostQueue) s.envQueue (.host :: s.schedule)

end Sys2Proof.Machine
end

