-- ==== Sys2Proof/Safety.lean ====
section
/-! DEFINITION. What a run is, when it ends, when it failed and when it has read the most recent frame
(spec/70_reset_and_hazards.md R137, R140), and the relations that hold in every reachable state (spec/10_state.md R13, R16,
spec/41_sign_converter.md R74, spec/42_calibration.md R82). -/

namespace Sys2Proof.Machine

/-- A state with a latched fault is failed, not final (R113, R140). -/
def State.failed (s : State) : Prop := s.ft = true

/-- RAW is a zero-extended raw code: bits 31:24 are 0 (R13). -/
def State.rawIsCode (s : State) : Prop := s.raw = rawWord (codeOf s.raw)

/-- SRAW is a sign-extended raw code (R74), so it lies in -8388608 to 8388607 (R13). -/
def State.srawIsSigned (s : State) : Prop := s.sraw = sextCode (codeOf s.sraw)

/-- Where SV is set, SVAL is the conversion of SRAW (R74). -/
def State.svalMatches (s : State) : Prop := s.sv = true → s.sval = i2f s.cfg.fmt s.sraw.toInt

/-- An `FMT` value that is not a NaN, in its container. -/
def isNumber (f : Format) (w : FpWord) : Prop := isPattern f w = true ∧ isNaN f w = false

/-- No register holds a NaN (R82). -/
def State.noNaN (s : State) : Prop :=
  isNumber s.cfg.fmt s.sval ∧ isNumber s.cfg.fmt s.pri ∧ isNumber s.cfg.fmt s.sec

/-- CAUSE is NONE exactly while no fault is latched (R16, R111). -/
def State.causeMatches (s : State) : Prop := s.ft = false ↔ s.cause = .none

/-- What every step keeps and reset has: the configuration is admitted (R12), the registers are
related as R13, R74, R82 and R16 say, and FRAME has its canonical form. -/
def State.Inv (s : State) : Prop :=
  s.cfg.admitted = true ∧ s.rawIsCode ∧ s.srawIsSigned ∧ s.svalMatches ∧ s.noNaN ∧ s.causeMatches
    ∧ Memory.wf s.frame = true

/-- The block after power-on with a configuration and all the inputs that will ever arrive, in any order. -/
def State.start (c : Config) (host : List HostStep) (env : List EnvEvent) (turns : List Agent) : State :=
  { State.reset with cfg := c, hostQueue := host, envQueue := env, schedule := turns }

/-- The reachable states: those after any number of steps from power-on, for every admitted
configuration and every interleaving of every input (R12, R39). -/
inductive Reachable : State → Prop where
  | start (c : Config) (host : List HostStep) (env : List EnvEvent) (turns : List Agent)
      (h : c.admitted = true) : Reachable (State.start c host env turns)
  | step (s t : State) (hs : Reachable s) (ht : Sys2Proof.Machine.step s = .next t) : Reachable t

/-- Finitely many steps from `s` to the last state, with what arrived in each, oldest first. -/
inductive Steps (s : State) : List Event → State → Prop where
  | none : Steps s [] s
  | snoc (es : List Event) (t u : State) (hs : Steps s es t) (ht : Sys2Proof.Machine.step t = .next u) :
      Steps s (es ++ [nextEvent t]) u

/-- A run (R140): a finite sequence of steps from reset, here the power-on state with an admitted
configuration and any inputs. -/
def Run (c : Config) (es : List Event) (t : State) : Prop :=
  c.admitted = true ∧ ∃ host env turns, Steps (State.start c host env turns) es t

/-- The host issues no more steps: it has none left, or no turn is its own. -/
def State.hostStopped (s : State) : Prop := s.hostQueue = [] ∨ .host ∉ s.schedule

/-- A run at its end (R140): the host has stopped issuing steps. The run's result is the state `t`, as
the read port shows it. The environment and reset may still step: log entry 18. -/
def EndedRun (c : Config) (es : List Event) (t : State) : Prop := Run c es t ∧ t.hostStopped

/-- One more event after the last XFER_DONE, or that XFER_DONE itself. -/
def transferAfter (last : Option (List Byte × List Event)) (e : Event) : Option (List Byte × List Event) :=
  match e with
  | .xferDone bytes => some (bytes, [])
  | .idle => last.map (fun p => (p.1, p.2 ++ [e]))
  | .reset => last.map (fun p => (p.1, p.2 ++ [e]))
  | .command _ => last.map (fun p => (p.1, p.2 ++ [e]))
  | .read _ => last.map (fun p => (p.1, p.2 ++ [e]))
  | .xferStart => last.map (fun p => (p.1, p.2 ++ [e]))

/-- The bytes of a run's last XFER_DONE, if it has one, and what arrived after it. -/
def sinceLastTransfer (es : List Event) : Option (List Byte × List Event) := es.foldl transferAfter none

/-- A CONV, or a complete `DEC; SXT; CAL; UCV` in this order, other steps between them or not (log entry 18). -/
def hasConversion (es : List Event) : Prop :=
  .command (encode .conv) ∈ es ∨
    [.command (encode .dec), .command (encode .sxt), .command (encode .cal), .command (encode .ucv)].Sublist es

/-- The last full conversion came after the last XFER_DONE (R140). -/
def convertsMostRecentFrame (es : List Event) : Prop :=
  ∃ bytes after, sinceLastTransfer es = some (bytes, after) ∧ hasConversion after

/-- The run has read the most recent frame (R140). -/
def hasReadMostRecentFrame (es : List Event) (t : State) : Prop :=
  t.ft = false ∧ t.uv = true ∧ convertsMostRecentFrame es

/-- A command after an outcome, if that was a next state. -/
def andThen (o : Host.Outcome State Fault Refusal) (i : Instr) : Host.Outcome State Fault Refusal :=
  match o with
  | .next s => exec i s
  | .fault r => .fault r
  | .refused r => .refused r

/-- `DEC; SXT; CAL; UCV` with no other step between them (R101). -/
def stagedConversion (s : State) : Host.Outcome State Fault Refusal :=
  andThen (andThen (andThen (exec .dec s) .sxt) .cal) .ucv

/-- Two frames agree in bits 7, 5, 3 and 1 of bytes 1 to 6 (R63). -/
def sampleBitsAgree (m m' : Memory) : Prop :=
  ∀ (i : Fin 8) (k : Nat), 1 ≤ i.val → i.val ≤ 6 → k < 4 →
    (m.read i).getLsbD (2 * k + 1) = (m'.read i).getLsbD (2 * k + 1)

/-- Which results come from the frame now in FRAME (R137): a valid bit does not say it. -/
structure Fresh where
  raw : Bool
  signed : Bool
  primary : Bool
  secondary : Bool
  deriving DecidableEq, Repr

/-- No result comes from the frame now in FRAME. -/
def Fresh.nothing : Fresh := ⟨false, false, false, false⟩

/-- What one legal command makes of it: a stage's result is as fresh as its source (R137). -/
def Fresh.command (f : Fresh) : Instr → Fresh
  | .dec => { f with raw := true }
  | .sxt => { f with signed := f.raw }
  | .cal => { f with primary := f.signed }
  | .ucv => { f with secondary := f.primary }
  | .conv => ⟨true, true, true, true⟩

/-- What one step that left no fault latched makes of it: a new frame or a reset leaves nothing fresh. -/
def Fresh.after (f : Fresh) : Event → Fresh
  | .idle => f
  | .reset => Fresh.nothing
  | .command w =>
    match decodeWord w with
    | .ok i => f.command i
    | .error _ => f
  | .read _ => f
  | .xferStart => f
  | .xferDone _ => Fresh.nothing

/-- Which results of a run come from the frame now in FRAME: nothing at reset, then event by event. -/
def Fresh.over (es : List Event) : Fresh := es.foldl Fresh.after Fresh.nothing

/-- The fresh results are the functions of FRAME that R61, R70, R72, R84 and R87 give. -/
def Fresh.holds (f : Fresh) (s : State) : Prop :=
  (f.raw = true → s.raw = rawWord (decodeFrame s.frame)) ∧
  (f.signed = true → s.sraw = sextCode (decodeFrame s.frame) ∧ s.sval = svalOf s.cfg.fmt (decodeFrame s.frame)) ∧
  (f.primary = true → s.pri = cal s.cfg (svalOf s.cfg.fmt (decodeFrame s.frame))) ∧
  (f.secondary = true → s.sec = ucv s.cfg (cal s.cfg (svalOf s.cfg.fmt (decodeFrame s.frame))))

end Sys2Proof.Machine
end

