-- ==== Sys2Proof/Certificates/Slice0/Obligations.lean ====
section
/-! DEFINITION. The statements about the block, for the provers. Each docstring names the rules it
formalises. -/

open Sys2Proof Sys2Proof.Machine

/-! ### Command words -/

/-- R47, R48: every command's word decodes to it, and a word that decodes to a command is its word. -/
def Obligations.DecodeEncodeRoundTrip : Prop :=
  (∀ i : Instr, decodeWord (encode i) = .ok i) ∧ ∀ (w : Byte) (i : Instr), decodeWord w = .ok i → encode i = w

/-- R48, column CMD: the five words as the spec writes them. -/
def Obligations.SpecCommandWordsDecode : Prop :=
  decodeWord 0x01#8 = .ok .dec ∧ decodeWord 0x02#8 = .ok .sxt ∧ decodeWord 0x03#8 = .ok .cal ∧
  decodeWord 0x04#8 = .ok .ucv ∧ decodeWord 0x05#8 = .ok .conv

/-- R49: a word with `OP` 0x0 or 0x6 to 0xF, or with `RSV` not 0, latches ILLEGAL_COMMAND and writes
nothing else. The words that decode are 0x01 to 0x05. -/
def Obligations.IllegalWordsFault : Prop :=
  (∀ (w : Byte) (s : State), s.ft = false →
    ((w.extractLsb' 0 4).toNat = 0 ∨ 6 ≤ (w.extractLsb' 0 4).toNat ∨ w.extractLsb' 4 4 ≠ 0#4) →
    perform (.command w) s = .next { s with ft := true, cause := .illegalCommand }) ∧
  ∀ w : Byte, (∃ i, decodeWord w = .ok i) ↔ (1 ≤ w.toNat ∧ w.toNat ≤ 5)

/-! ### Steps -/

/-- R18, R39, R50: a legal word on the command port is executed in the step it arrives, as `exec` of
the command it decodes to, and the word and the turn are used up. An illegal word is not executed. -/
def Obligations.StepRunsDecodedCommand : Prop :=
  ∀ (s : State) (w : Byte) (rest : List HostStep) (turns : List Agent), s.cfg.admitted = true →
    s.schedule = .host :: turns → s.hostQueue = .command w :: rest →
    (∀ i, decodeWord w = .ok i → step s = exec i { s with hostQueue := rest, schedule := turns }) ∧
    (∀ r, decodeWord w = .error r →
      step s = .next { s with hostQueue := rest, schedule := turns, ft := true,
                              cause := if s.ft then s.cause else .illegalCommand })

/-- R39: one step is one read, one environment event or one reset, of the agent whose turn it is.
Model's choice, log entry 2: with no turn left, or an agent that has nothing to do, only the turn passes. -/
def Obligations.StepPerformsTheTurn : Prop :=
  ∀ (s : State) (turns : List Agent), s.cfg.admitted = true →
    (s.schedule = [] → step s = .next s) ∧
    (s.schedule = .reset :: turns → step s = perform .reset { s with schedule := turns }) ∧
    (∀ index rest, s.schedule = .host :: turns → s.hostQueue = .read index :: rest →
      step s = perform (.read index) { s with hostQueue := rest, schedule := turns }) ∧
    (∀ rest, s.schedule = .environment :: turns → s.envQueue = .xferStart :: rest →
      step s = perform .xferStart { s with envQueue := rest, schedule := turns }) ∧
    (∀ bytes rest, s.schedule = .environment :: turns → s.envQueue = .xferDone bytes :: rest →
      step s = perform (.xferDone bytes) { s with envQueue := rest, schedule := turns }) ∧
    (s.schedule = .host :: turns → s.hostQueue = [] → step s = .next { s with schedule := turns }) ∧
    (s.schedule = .environment :: turns → s.envQueue = [] → step s = .next { s with schedule := turns })

/-- R39: the host's own steps and the environment's own events are each taken in their order, and no
step of one agent takes anything of the other's. Model's choice, log entries 1 and 2: pending steps and
turns stand in State, a step uses up a turn where one is left, and an agent's turn may find nothing. -/
def Obligations.EachAgentsOrderIsKept : Prop :=
  ∀ s t : State, step s = .next t →
    t.schedule = s.schedule.tail ∧
    t.hostQueue = (if s.schedule.head? = some .host then s.hostQueue.tail else s.hostQueue) ∧
    t.envQueue = (if s.schedule.head? = some .environment then s.envQueue.tail else s.envQueue)

/-- R12: a configuration is admitted exactly if the five conditions hold. Otherwise the model has no
block for it: every step is refused. With an admitted one no step stops. -/
def Obligations.OnlyAdmittedConfigurationsRun : Prop :=
  (∀ c : Config, c.admitted = true ↔
    (∀ w ∈ [c.raw1, c.p1, c.raw2, c.p2], w.toNat < 2 ^ c.fmt.width ∧ isFinite c.fmt w = true) ∧
    fpUnits c.fmt c.raw1 ≠ fpUnits c.fmt c.raw2 ∧
    isFinite c.fmt (fpDiv c.fmt (fpSub c.fmt c.p2 c.p1) (fpSub c.fmt c.raw2 c.raw1)) = true ∧
    c.modesSelected = 1 ∧
    c.kUnit = (match c.fmt with | .binary32 => 0x3DC8D717#64 | .binary64 => 0x3FB91AE2DA554B8C#64)) ∧
  (∀ s : State, s.cfg.admitted = false → step s = .refused .configurationNotAdmitted) ∧
  (∀ s : State, s.cfg.admitted = true → ∃ t, step s = .next t)

/-- R4: nothing changes the configuration while the block runs. -/
def Obligations.ConfigurationNeverChanges : Prop :=
  ∀ s t : State, step s = .next t → t.cfg = s.cfg

/-- R110, R113: no command stops the machine: a fault is a next state too. -/
def Obligations.EveryCommandHasNextState : Prop :=
  ∀ (i : Instr) (s : State), ∃ t, exec i s = .next t

/-- R10, R137: what each command can change at all, from any state: its own stage's registers and
valid bit, FT and CAUSE. Everything else, FRAME and the inputs among it, is unchanged. -/
def Obligations.CommandsWriteOnlyTheirStage : Prop :=
  ∀ s t : State,
    (exec .dec s = .next t → t = { s with raw := t.raw, rv := t.rv, ft := t.ft, cause := t.cause }) ∧
    (exec .sxt s = .next t →
      t = { s with sraw := t.sraw, sval := t.sval, sv := t.sv, ft := t.ft, cause := t.cause }) ∧
    (exec .cal s = .next t → t = { s with pri := t.pri, pv := t.pv, ft := t.ft, cause := t.cause }) ∧
    (exec .ucv s = .next t → t = { s with sec := t.sec, uv := t.uv, ft := t.ft, cause := t.cause }) ∧
    (exec .conv s = .next t →
      t = { s with raw := t.raw, rv := t.rv, sraw := t.sraw, sval := t.sval, sv := t.sv, pri := t.pri,
                   pv := t.pv, sec := t.sec, uv := t.uv, ft := t.ft, cause := t.cause })

/-! ### The Frame Decoder -/

/-- R60: the nibble of a byte. -/
def Obligations.NibbleTakesOddBits : Prop :=
  (∀ b : Byte, (nib b).getLsbD 3 = b.getLsbD 7 ∧ (nib b).getLsbD 2 = b.getLsbD 5 ∧
    (nib b).getLsbD 1 = b.getLsbD 3 ∧ (nib b).getLsbD 0 = b.getLsbD 1) ∧
  nib 0xAA#8 = 0xF#4 ∧ nib 0x55#8 = 0x0#4 ∧ nib 0x80#8 = 0x8#4 ∧ nib 0x2A#8 = 0x7#4

/-- R62, case by case, with R61 and R45 for the value: where DEC has its effect, bit `2k+1` of byte
`i` (1 to 6) becomes `RAW[(6-i)*4+k]`, `RAW[31:24]` is 0, RV is 1, and nothing else changes. -/
def Obligations.DecGathersTheSampleBits : Prop :=
  decodeWord 0x01#8 = .ok .dec ∧ ∀ s : State,
    (s.ft = true → exec .dec s = .next s) ∧
    (s.ft = false → s.fstate = .inFlight → exec .dec s = .next { s with ft := true, cause := .frameInFlight }) ∧
    (s.ft = false → s.fstate = .empty → exec .dec s = .next { s with ft := true, cause := .noOperand }) ∧
    (s.ft = false → s.fstate = .loaded →
      ∃ t, exec .dec s = .next t ∧ t = { s with raw := t.raw, rv := true } ∧
        (∀ (i : Fin 8) (k : Nat), 1 ≤ i.val → i.val ≤ 6 → k < 4 →
          t.raw.getLsbD ((6 - i.val) * 4 + k) = (s.frame.read i).getLsbD (2 * k + 1)) ∧
        ∀ j, 24 ≤ j → t.raw.getLsbD j = false)

/-- R63: the decoded code depends only on bits 7, 5, 3 and 1 of bytes 1 to 6, and every raw code has
a frame: storing its canonical frame in any frame buffer and decoding gives it back. -/
def Obligations.DecodeDependsOnSampleBitsOnly : Prop :=
  (∀ m m' : Memory, sampleBitsAgree m m' → decodeFrame m = decodeFrame m') ∧
  ∀ (m : Memory) (r : RawCode), Memory.wf m = true → decodeFrame (m.writeFrame (canonicalFrame r)) = r

/-- R46, R34, R62: the frame encoding and its decoding agree on the machine: a transfer in flight that
completes with the canonical frame of any raw code, then DEC, leaves that code in RAW. -/
def Obligations.CanonicalFrameRoundTrip : Prop :=
  ∀ (s : State) (r : RawCode), s.ft = false → s.fstate = .inFlight → Memory.wf s.frame = true →
    ∃ t u, perform (.xferDone (canonicalFrame r)) s = .next t ∧ exec .dec t = .next u ∧
      u.raw = r.setWidth 32 ∧ u.rv = true ∧ u.ft = false

/-- R38: a DEC or CONV in flight raises FRAME_IN_FLIGHT and reads nothing, with no frame yet it raises
NO_OPERAND. -/
def Obligations.UnreadableFrameFaults : Prop :=
  ∀ (s : State) (i : Instr), s.ft = false → i = .dec ∨ i = .conv →
    (s.fstate = .inFlight → exec i s = .next { s with ft := true, cause := .frameInFlight }) ∧
    (s.fstate = .empty → exec i s = .next { s with ft := true, cause := .noOperand })

/-! ### The Signed Converter -/

/-- R70: bits 31:24 are set if bit 23 is set, and clear if not. It is the sign extension of the code. -/
def Obligations.SignExtensionOfTheCode : Prop :=
  ∀ r : RawCode,
    (r.getLsbD 23 = true → sextCode r = r.setWidth 32 ||| 0xFF000000#32) ∧
    (r.getLsbD 23 = false → sextCode r = r.setWidth 32) ∧ sextCode r = r.signExtend 32

/-- R71: `sint(r) = r - 2^24 * r[23]`, which takes every integer of -8388608 to 8388607 once. -/
def Obligations.SignedValueIsABijection : Prop :=
  (∀ r : RawCode, sint r = (sextCode r).toInt ∧ sint r = (r.toNat : Int) - 2 ^ 24 * (if r.getLsbD 23 then 1 else 0)) ∧
  (∀ r : RawCode, -8388608 ≤ sint r ∧ sint r ≤ 8388607) ∧
  (∀ r r' : RawCode, sint r = sint r' → r = r') ∧
  ∀ n : Int, -8388608 ≤ n → n ≤ 8388607 → ∃ r : RawCode, sint r = n

/-- R72: an integer of magnitude at most 2^24 is converted exactly, in both formats, and 0 to +0. -/
def Obligations.SmallIntegersConvertExactly : Prop :=
  ∀ (f : Format) (n : Int), n.natAbs ≤ 2 ^ 24 →
    isFinite f (i2f f n) = true ∧ isPattern f (i2f f n) = true ∧
    fpUnits f (i2f f n) = n * 2 ^ f.unitBits ∧ (n = 0 → i2f f n = 0#64)

/-- R73, case by case: where SXT has its effect, SRAW is the sign extension of RAW[23:0], SVAL is a
finite value exactly equal to it, SV is 1, and nothing else changes. -/
def Obligations.SxtConvertsExactly : Prop :=
  decodeWord 0x02#8 = .ok .sxt ∧ ∀ s : State,
    (s.ft = true → exec .sxt s = .next s) ∧
    (s.ft = false → s.rv = false → exec .sxt s = .next { s with ft := true, cause := .noOperand }) ∧
    (s.ft = false → s.rv = true →
      ∃ t, exec .sxt s = .next t ∧ t = { s with sraw := t.sraw, sval := t.sval, sv := true } ∧
        t.sraw = (s.raw.extractLsb' 0 24).signExtend 32 ∧
        t.sval = i2f s.cfg.fmt (s.raw.extractLsb' 0 24).toInt ∧ isFinite s.cfg.fmt t.sval = true ∧
        fpUnits s.cfg.fmt t.sval = (s.raw.extractLsb' 0 24).toInt * 2 ^ s.cfg.fmt.unitBits)

/-! ### IEEE arithmetic -/

/-- R81: `fl` rounds the magnitude and keeps the sign, and a zero has the sign given. Below the overflow
threshold the magnitude is a finite pattern none is nearer than, and at equal distance it is even. From
it on, it is infinity. Log entry 11, PRESUMED from IEEE 754: the threshold lies half way from the
largest finite value to the next power of two. -/
def Obligations.RoundsToNearestTiesToEven : Prop :=
  ∀ (f : Format) (d : Nat), 0 < d →
    (∀ (a : Bool) (v : Int), fpMagnitude f (fl f a v d) = roundMagnitude f v.natAbs d ∧
      (v = 0 → fpNegative f (fl f a v d) = a) ∧ (v ≠ 0 → (fpNegative f (fl f a v d) = true ↔ v < 0)) ∧
      isPattern f (fl f a v d) = true) ∧
    ∀ n : Nat,
      (roundMagnitude f n d = f.infMagnitude ↔
        (magnitudeUnits f (f.infMagnitude - 1) + magnitudeUnits f f.infMagnitude) * d ≤ 2 * n) ∧
      roundMagnitude f n d ≤ f.infMagnitude ∧
      (roundMagnitude f n d < f.infMagnitude → ∀ q, q < f.infMagnitude →
        ((magnitudeUnits f (roundMagnitude f n d) * d : Int) - n).natAbs ≤ ((magnitudeUnits f q * d : Int) - n).natAbs ∧
        (((magnitudeUnits f (roundMagnitude f n d) * d : Int) - n).natAbs = ((magnitudeUnits f q * d : Int) - n).natAbs →
          q ≠ roundMagnitude f n d → roundMagnitude f n d % 2 = 0))

/-- R81: a value of the format is rounded to itself, subnormal or not. -/
def Obligations.RepresentableValuesAreExact : Prop :=
  ∀ (f : Format) (p d : Nat), p < f.infMagnitude → 0 < d → roundMagnitude f (magnitudeUnits f p * d) d = p

/-- R81, R83, R82: on finite operands each of `+`, `-`, `*`, `/` is one rounding of the exact real
result, and the fused multiply-add one rounding of the exact sum of product and addend. Log entry 11,
PRESUMED from IEEE 754: the sign of an exact zero, and what an infinity gives with a finite value, such
as the infinity itself as the sum. -/
def Obligations.OperationsRoundTheExactResult : Prop :=
  ∀ (f : Format) (x y z : FpWord), isFinite f x = true → isFinite f y = true → isFinite f z = true →
    fpAdd f x y = fl f (fpNegative f x && fpNegative f y) (fpUnits f x + fpUnits f y) 1 ∧
    fpSub f x y = fl f (fpNegative f x && !fpNegative f y) (fpUnits f x - fpUnits f y) 1 ∧
    fpMul f x y = fl f (fpNegative f x ^^ fpNegative f y) (fpUnits f x * fpUnits f y) (2 ^ f.unitBits) ∧
    (0 < fpUnits f y →
      fpDiv f x y = fl f (fpNegative f x ^^ fpNegative f y) (fpUnits f x * 2 ^ f.unitBits) (fpUnits f y).natAbs) ∧
    (fpUnits f y < 0 →
      fpDiv f x y = fl f (fpNegative f x ^^ fpNegative f y) (-(fpUnits f x) * 2 ^ f.unitBits) (fpUnits f y).natAbs) ∧
    fpFma f x y z = fl f ((fpNegative f x ^^ fpNegative f y) && fpNegative f z)
      (fpUnits f x * fpUnits f y + fpUnits f z * 2 ^ f.unitBits) (2 ^ f.unitBits) ∧
    ∀ a : Bool,
      fpAdd f (fpInfinity f a) y = fpInfinity f a ∧ fpAdd f x (fpInfinity f a) = fpInfinity f a ∧
      (fpUnits f y ≠ 0 → fpMul f (fpInfinity f a) y = fpInfinity f (a ^^ fpNegative f y)) ∧
      (fpUnits f x ≠ 0 → fpMul f x (fpInfinity f a) = fpInfinity f (fpNegative f x ^^ a)) ∧
      fpDiv f x (fpInfinity f a) = fpZero f (fpNegative f x ^^ a) ∧
      (fpUnits f y ≠ 0 → fpDiv f (fpInfinity f a) y = fpInfinity f (a ^^ fpNegative f y))

/-- R83, its first sentence: signed zeros, for every finite value. -/
def Obligations.SignedZerosFollowIeee : Prop :=
  ∀ (f : Format) (x : FpWord), isFinite f x = true →
    fpSub f x x = fpZero f false ∧
    fpMul f (fpZero f false) x = fpZero f (fpNegative f x) ∧
    fpMul f x (fpZero f false) = fpZero f (fpNegative f x) ∧
    fpAdd f (fpZero f false) (fpZero f true) = fpZero f false ∧
    fpAdd f (fpZero f true) (fpZero f true) = fpZero f true

/-! ### The Calibration Mapper and the Unit Converter -/

/-- R85, R84, case by case: where CAL has its effect, PRI is the formula's value, one rounding an
operator, or one for multiply and add where CAL_FUSED, PV is 1, and nothing else changes. -/
def Obligations.CalAppliesTheLine : Prop :=
  decodeWord 0x03#8 = .ok .cal ∧ ∀ s : State,
    (s.ft = true → exec .cal s = .next s) ∧
    (s.ft = false → s.sv = false → exec .cal s = .next { s with ft := true, cause := .noOperand }) ∧
    (s.ft = false → s.sv = true →
      exec .cal s = .next { s with
        pri :=
          if s.cfg.calFused then fpFma s.cfg.fmt (slope s.cfg) (fpSub s.cfg.fmt s.sval s.cfg.raw1) s.cfg.p1
          else fpAdd s.cfg.fmt (fpMul s.cfg.fmt (slope s.cfg) (fpSub s.cfg.fmt s.sval s.cfg.raw1)) s.cfg.p1,
        pv := true }) ∧
    slope s.cfg = fpDiv s.cfg.fmt (fpSub s.cfg.fmt s.cfg.p2 s.cfg.p1) (fpSub s.cfg.fmt s.cfg.raw2 s.cfg.raw1)

/-- R86, R83: at the first calibration point the result is the first pressure, exactly, fused or not. Of
zeros it is -0 only where SLOPE has its sign bit set and P_1 is -0. (SVAL is never -0, R72.) -/
def Obligations.FirstCalibrationPointIsExact : Prop :=
  ∀ (c : Config) (x : FpWord), c.admitted = true → isPattern c.fmt x = true → isFinite c.fmt x = true →
    x ≠ fpZero c.fmt true → fpUnits c.fmt x = fpUnits c.fmt c.raw1 →
    (fpUnits c.fmt c.p1 ≠ 0 → cal c x = c.p1) ∧
    (fpUnits c.fmt c.p1 = 0 → cal c x = fpZero c.fmt (fpNegative c.fmt c.p1 && fpNegative c.fmt (slope c)))

/-- R85, corner case, and R83: where P_1 = P_2, SLOPE is a zero and every integer input gives P_1, up to
the sign of zero. SLOPE is -0 exactly if RAW_2 < RAW_1. Only where P_1 is +0 and P_2 is -0 it is -0
exactly if RAW_1 < RAW_2, since there `P_2 - P_1` is -0 (log entry 11, PRESUMED from IEEE 754). -/
def Obligations.EqualPressuresGiveThatPressure : Prop :=
  ∀ (c : Config) (r : RawCode), c.admitted = true → fpUnits c.fmt c.p1 = fpUnits c.fmt c.p2 →
    fpUnits c.fmt (slope c) = 0 ∧
    (¬(c.p1 = fpZero c.fmt false ∧ c.p2 = fpZero c.fmt true) →
      slope c = fpZero c.fmt (decide (fpUnits c.fmt c.raw2 < fpUnits c.fmt c.raw1))) ∧
    (c.p1 = fpZero c.fmt false → c.p2 = fpZero c.fmt true →
      slope c = fpZero c.fmt (decide (fpUnits c.fmt c.raw1 < fpUnits c.fmt c.raw2))) ∧
    isFinite c.fmt (cal c (svalOf c.fmt r)) = true ∧
    fpUnits c.fmt (cal c (svalOf c.fmt r)) = fpUnits c.fmt c.p1

/-- R12: condition (2) implies that `fl(RAW_2 - RAW_1)` is not 0, as of any two different values. -/
def Obligations.DifferentValuesDifferByNonzero : Prop :=
  (∀ (f : Format) (x y : FpWord), isFinite f x = true → isFinite f y = true → fpUnits f x ≠ fpUnits f y →
    fpMagnitude f (fpSub f x y) ≠ 0) ∧
  ∀ c : Config, c.admitted = true → fpMagnitude c.fmt (fpSub c.fmt c.raw2 c.raw1) ≠ 0

/-- R82: with an admitted configuration, every code's SVAL and its distance from RAW_1 are finite, and
PRI and SEC are finite or an infinity, never a NaN. -/
def Obligations.NoNaNFromAnyCode : Prop :=
  ∀ (c : Config) (r : RawCode), c.admitted = true →
    isFinite c.fmt (svalOf c.fmt r) = true ∧
    isFinite c.fmt (fpSub c.fmt (svalOf c.fmt r) c.raw1) = true ∧
    isNumber c.fmt (cal c (svalOf c.fmt r)) ∧
    isNumber c.fmt (ucv c (cal c (svalOf c.fmt r)))

/-- R88, case by case: where UCV has its effect, SEC is one multiplication of PRI by K_UNIT, UV is 1,
and nothing else changes. -/
def Obligations.UcvMultipliesByTheFactor : Prop :=
  decodeWord 0x04#8 = .ok .ucv ∧ ∀ s : State,
    (s.ft = true → exec .ucv s = .next s) ∧
    (s.ft = false → s.pv = false → exec .ucv s = .next { s with ft := true, cause := .noOperand }) ∧
    (s.ft = false → s.pv = true →
      exec .ucv s = .next { s with sec := fpMul s.cfg.fmt s.pri s.cfg.kUnit, uv := true })

/-- R87: `ucv` keeps infinities and zeros of either sign and every sign, and gives K_UNIT at 1.0. -/
def Obligations.UnitConversionSpecialValues : Prop :=
  ∀ c : Config, c.admitted = true →
    (∀ a, ucv c (fpInfinity c.fmt a) = fpInfinity c.fmt a ∧ ucv c (fpZero c.fmt a) = fpZero c.fmt a) ∧
    (∀ p, isNaN c.fmt p = false → fpNegative c.fmt (ucv c p) = fpNegative c.fmt p) ∧
    ucv c (match c.fmt with | .binary32 => 0x3F800000#64 | .binary64 => 0x3FF0000000000000#64) = c.kUnit

/-- R4, R87, R89: K_UNIT is the value of each format nearest 0.0980665. -/
def Obligations.UnitFactorIsNearest : Prop :=
  ∀ (f : Format) (q : Nat), q < f.infMagnitude →
    isFinite f (unitFactor f) = true ∧ fpNegative f (unitFactor f) = false ∧
    ((magnitudeUnits f (fpMagnitude f (unitFactor f)) * 10000000 : Int) - 980665 * 2 ^ f.unitBits).natAbs
      ≤ ((magnitudeUnits f q * 10000000 : Int) - 980665 * 2 ^ f.unitBits).natAbs

/-! ### The whole conversion -/

/-- R100, case by case: where CONV has its effect, the five results and the four valid bits are
written and nothing else changes. -/
def Obligations.ConvWritesAllResults : Prop :=
  decodeWord 0x05#8 = .ok .conv ∧ ∀ s : State,
    (s.ft = true → exec .conv s = .next s) ∧
    (s.ft = false → s.fstate = .inFlight → exec .conv s = .next { s with ft := true, cause := .frameInFlight }) ∧
    (s.ft = false → s.fstate = .empty → exec .conv s = .next { s with ft := true, cause := .noOperand }) ∧
    (s.ft = false → s.fstate = .loaded →
      exec .conv s = .next { s with
        raw := (decodeFrame s.frame).setWidth 32, sraw := (decodeFrame s.frame).signExtend 32,
        sval := i2f s.cfg.fmt (decodeFrame s.frame).toInt,
        pri := cal s.cfg (i2f s.cfg.fmt (decodeFrame s.frame).toInt),
        sec := ucv s.cfg (cal s.cfg (i2f s.cfg.fmt (decodeFrame s.frame).toInt)),
        rv := true, sv := true, pv := true, uv := true })

/-- R101: where DEC does not fault, CONV reaches the state of DEC, SXT, CAL, UCV run in a row. Where DEC
faults, CONV leaves the same state. -/
def Obligations.ConvEqualsTheSequence : Prop :=
  ∀ s : State,
    (s.ft = true ∨ s.fstate = .loaded → exec .conv s = stagedConversion s) ∧
    (s.ft = false → s.fstate ≠ .loaded → exec .conv s = exec .dec s)

/-- R102: the end-to-end results depend only on bits 7, 5, 3 and 1 of bytes 1 to 6 and on the
configuration: two states that agree in those get the same results, whatever else differs. -/
def Obligations.ResultsDependOnSampleBitsOnly : Prop :=
  ∀ s s' : State, s.cfg = s'.cfg → sampleBitsAgree s.frame s'.frame →
    s.ft = false → s'.ft = false → s.fstate = .loaded → s'.fstate = .loaded →
    ∃ t t', exec .conv s = .next t ∧ exec .conv s' = .next t' ∧
      t.pri = cal s.cfg (i2f s.cfg.fmt (sint (decodeFrame s.frame))) ∧ t.sec = ucv s.cfg t.pri ∧
      t.pri = t'.pri ∧ t.sec = t'.sec

/-! ### The environment's events and reset -/

/-- R33: XFER_START, case by case. -/
def Obligations.XferStartTransitions : Prop :=
  ∀ s : State,
    perform .xferStart s = .next
      (if s.ft = true then s
       else if s.fstate = .inFlight then { s with ft := true, cause := .protocol }
       else { s with fstate := .inFlight })

/-- R34, R35: XFER_DONE, case by case. The accepted one stores all eight bytes, whatever FRAME held.
Every other leaves FRAME and FSTATE as they were. Model's choice, log entry 6: FRAME is a list in a
canonical form, which the accepted one needs and keeps. -/
def Obligations.XferDoneTransitions : Prop :=
  ∀ (s : State) (bytes : List Byte),
    (s.ft = true → perform (.xferDone bytes) s = .next s) ∧
    (s.ft = false → s.fstate ≠ .inFlight →
      perform (.xferDone bytes) s = .next { s with ft := true, cause := .protocol }) ∧
    (s.ft = false → s.fstate = .inFlight → bytes.length ≠ 8 →
      perform (.xferDone bytes) s = .next { s with ft := true, cause := .frameLength }) ∧
    (s.ft = false → s.fstate = .inFlight → bytes.length = 8 → Memory.wf s.frame = true →
      ∃ t, perform (.xferDone bytes) s = .next t ∧ t = { s with frame := t.frame, fstate := .loaded } ∧
        Memory.wf t.frame = true ∧ ∀ i : Fin 8, bytes[i.val]? = some (t.frame.read i))

/-- R40: a DEC after an XFER_DONE, with any steps between them but an XFER_START and a reset, reads
exactly the bytes that XFER_DONE delivered, whatever FRAME held before, unless a step between latched a
fault. -/
def Obligations.DecReadsTheDeliveredBytes : Prop :=
  ∀ (s : State) (bytes : List Byte), s.ft = false → s.fstate = .inFlight → bytes.length = 8 →
    Memory.wf s.frame = true →
    ∃ t, perform (.xferDone bytes) s = .next t ∧ t.ft = false ∧
      ∀ es u, Steps t es u → .xferStart ∉ es → .reset ∉ es → u.ft = false →
        ∃ v, exec .dec u = .next v ∧ v.ft = false ∧
          ∀ i k, 1 ≤ i → i ≤ 6 → k < 4 →
            some (v.raw.getLsbD ((6 - i) * 4 + k)) = bytes[i]?.map (fun b => b.getLsbD (2 * k + 1))

/-- R30: of all steps but a reset, only XFER_DONE changes FRAME. -/
def Obligations.OnlyXferDoneWritesTheFrame : Prop :=
  ∀ (s t : State), step s = .next t → nextEvent s ≠ .reset → t.frame ≠ s.frame →
    s.ft = false ∧ s.fstate = .inFlight ∧ ∃ bytes, nextEvent s = .xferDone bytes ∧ bytes.length = 8

/-- R118: a transfer whose XFER_DONE never comes stays in flight through every other step but reset. -/
def Obligations.StalledTransferStaysInFlight : Prop :=
  ∀ s t : State, s.fstate = .inFlight → step s = .next t → nextEvent s ≠ .reset →
    (∀ bytes, nextEvent s ≠ .xferDone bytes) → t.fstate = .inFlight

/-- R138: a loaded frame stays loaded, and its bytes as they are, through every step but an XFER_START
and a reset, and decoding it again gives the same code and the same state. -/
def Obligations.LoadedFrameStaysUntilNextStart : Prop :=
  (∀ s t : State, s.fstate = .loaded → step s = .next t → nextEvent s ≠ .xferStart → nextEvent s ≠ .reset →
    t.fstate = .loaded ∧ t.frame = s.frame) ∧
  ∀ s t : State, s.ft = false → s.fstate = .loaded → exec .dec s = .next t →
    t.raw = (decodeFrame s.frame).setWidth 32 ∧ exec .dec t = .next t

/-- R20, R130: the reset event, in any state: the values R20 gives, the configuration unchanged, and
no fault. Of the data registers and of FRAME, which R20 leaves unspecified, nothing is stated. -/
def Obligations.ResetSetsTheGivenValues : Prop :=
  ∀ s : State, ∃ t, perform .reset s = .next t ∧ t.fstate = .empty ∧
    t.rv = false ∧ t.sv = false ∧ t.pv = false ∧ t.uv = false ∧ t.ft = false ∧ t.cause = .none ∧
    status t = 0#32 ∧ faultWord t = 0#32 ∧ t.cfg = s.cfg

/-- R131: reset does not stop the environment. The XFER_DONE of a transfer in flight when reset is
taken raises PROTOCOL in the next step. Until an XFER_START, FSTATE stays Empty, and there an XFER_DONE
raises PROTOCOL. -/
def Obligations.LateCompletionAfterResetFaults : Prop :=
  (∀ (s : State) (bytes : List Byte) (rest : List EnvEvent) (turns : List Agent), s.cfg.admitted = true →
    s.fstate = .inFlight → s.schedule = .reset :: .environment :: turns → s.envQueue = .xferDone bytes :: rest →
    ∃ t u, step s = .next t ∧ step t = .next u ∧ u.ft = true ∧ u.cause = .protocol ∧ u.frame = t.frame) ∧
  (∀ s t : State, s.fstate = .empty → step s = .next t → nextEvent s ≠ .xferStart → t.fstate = .empty) ∧
  ∀ (s : State) (bytes : List Byte), s.ft = false → s.fstate = .empty →
    perform (.xferDone bytes) s = .next { s with ft := true, cause := .protocol }

/-! ### Faults, status and the read port -/

/-- R112, R116: a step that raises a fault changes FT and CAUSE alone. Only the first cause is kept. -/
def Obligations.FaultsArePrecise : Prop :=
  ∀ (s t : State) (e : Event), perform e s = .next t →
    (s.ft = false → t.ft = true → t.cause ≠ .none ∧ t = { s with ft := true, cause := t.cause }) ∧
    (s.ft = true → e ≠ .reset → t.ft = true ∧ t.cause = s.cause)

/-- R113: while a fault is latched, commands and events do nothing, reads still answer, and only reset
clears it. -/
def Obligations.HaltedUntilReset : Prop :=
  ∀ s : State, s.ft = true →
    (∀ w, perform (.command w) s = .next s) ∧ (∀ i, exec i s = .next s) ∧
    perform .xferStart s = .next s ∧ (∀ bytes, perform (.xferDone bytes) s = .next s) ∧
    (∀ index w, specifiedWord s index = some w → perform (.read index) s = .next { s with readOut := some w }) ∧
    (status s).getLsbD 6 = true ∧
    (∀ e t, perform e s = .next t → t.ft = false → e = .reset) ∧
    (∃ t, perform .reset s = .next t ∧ t.ft = false) ∧ s.failed

/-- R114: the order in which a step's fault is chosen. -/
def Obligations.FaultPriority : Prop :=
  ∀ s : State,
    (s.ft = true → ∀ e, e ≠ .reset → (∀ index, e ≠ .read index) → perform e s = .next s) ∧
    (s.ft = false → ∀ w r, decodeWord w = .error r → ∃ t, perform (.command w) s = .next t ∧ t.cause = .illegalCommand) ∧
    (s.ft = false → ∀ i t, i = .dec ∨ i = .conv → exec i s = .next t →
      (t.ft = true ↔ s.fstate ≠ .loaded) ∧
      (t.ft = true → (t.cause = .frameInFlight ↔ s.fstate = .inFlight) ∧ (t.cause = .noOperand ↔ s.fstate = .empty))) ∧
    (s.ft = false → s.fstate ≠ .inFlight → ∀ bytes, bytes.length ≠ 8 →
      ∃ t, perform (.xferDone bytes) s = .next t ∧ t.cause = .protocol)

/-- R111: which step raises which code, and when. No condition speaks of a data value. -/
def Obligations.CausesAndTheirRaisers : Prop :=
  ∀ (s t : State) (e : Event), s.ft = false → perform e s = .next t → t.ft = true →
    (faultWord t = 1#32 ↔ ∃ bytes, e = .xferDone bytes ∧ s.fstate = .inFlight ∧ bytes.length ≠ 8) ∧
    (faultWord t = 2#32 ↔ (e = .command 0x01#8 ∨ e = .command 0x05#8) ∧ s.fstate = .inFlight) ∧
    (faultWord t = 3#32 ↔ ∃ w : Byte, e = .command w ∧ ¬(1 ≤ w.toNat ∧ w.toNat ≤ 5)) ∧
    (faultWord t = 4#32 ↔
      ((e = .command 0x01#8 ∨ e = .command 0x05#8) ∧ s.fstate = .empty) ∨ (e = .command 0x02#8 ∧ s.rv = false) ∨
      (e = .command 0x03#8 ∧ s.sv = false) ∨ (e = .command 0x04#8 ∧ s.pv = false)) ∧
    (faultWord t = 5#32 ↔
      (e = .xferStart ∧ s.fstate = .inFlight) ∨ ∃ bytes, e = .xferDone bytes ∧ s.fstate ≠ .inFlight) ∧
    1 ≤ (faultWord t).toNat ∧ (faultWord t).toNat ≤ 5

/-- R14: a valid bit is 0 after reset, is set by the step that writes its registers, is cleared by
reset alone, and a command whose source's bit is 0 raises NO_OPERAND instead of reading it. -/
def Obligations.ValidBitsSayWritten : Prop :=
  (∀ s t : State, perform .reset s = .next t → t.rv = false ∧ t.sv = false ∧ t.pv = false ∧ t.uv = false) ∧
  (∀ (s t : State) (e : Event), perform e s = .next t → e ≠ .reset →
    (s.rv = true → t.rv = true) ∧ (s.sv = true → t.sv = true) ∧ (s.pv = true → t.pv = true) ∧
    (s.uv = true → t.uv = true) ∧
    (t.raw ≠ s.raw → t.rv = true) ∧ (t.sraw ≠ s.sraw ∨ t.sval ≠ s.sval → t.sv = true) ∧
    (t.pri ≠ s.pri → t.pv = true) ∧ (t.sec ≠ s.sec → t.uv = true)) ∧
  (∀ s t : State, t.ft = false →
    (exec .dec s = .next t → t.rv = true) ∧ (exec .sxt s = .next t → t.sv = true) ∧
    (exec .cal s = .next t → t.pv = true) ∧ (exec .ucv s = .next t → t.uv = true) ∧
    (exec .conv s = .next t → t.rv = true ∧ t.sv = true ∧ t.pv = true ∧ t.uv = true)) ∧
  ∀ s : State, s.ft = false →
    (s.rv = false → exec .sxt s = .next { s with ft := true, cause := .noOperand }) ∧
    (s.sv = false → exec .cal s = .next { s with ft := true, cause := .noOperand }) ∧
    (s.pv = false → exec .ucv s = .next { s with ft := true, cause := .noOperand })

/-- R137: a transfer's events change no result register and no valid bit. -/
def Obligations.EventsLeaveResultsStale : Prop :=
  ∀ (s t : State) (e : Event), e = .xferStart ∨ (∃ bytes, e = .xferDone bytes) → perform e s = .next t →
    t = { s with fstate := t.fstate, frame := t.frame, ft := t.ft, cause := t.cause }

/-- R15: STATUS, bit by bit, as read at index 5. FL and IF are never both 1, and it is 0 at reset. -/
def Obligations.StatusBits : Prop :=
  ∀ s : State,
    ((status s).getLsbD 0 = true ↔ s.fstate = .loaded) ∧ ((status s).getLsbD 1 = true ↔ s.fstate = .inFlight) ∧
    (status s).getLsbD 2 = s.rv ∧ (status s).getLsbD 3 = s.sv ∧ (status s).getLsbD 4 = s.pv ∧
    (status s).getLsbD 5 = s.uv ∧ (status s).getLsbD 6 = s.ft ∧
    (∀ j, 7 ≤ j → (status s).getLsbD j = false) ∧
    ¬((status s).getLsbD 0 = true ∧ (status s).getLsbD 1 = true) ∧
    ((status s).getLsbD 0 = false ∧ (status s).getLsbD 1 = false ↔ s.fstate = .empty) ∧
    perform (.read 5) s = .next { s with readOut := some ((status s).setWidth 64) } ∧
    status State.reset = 0#32

/-- R111, R16: the code in FAULT, and its legal values. -/
def Obligations.FaultRegisterShowsTheCode : Prop :=
  ∀ s : State,
    (faultWord s).toNat =
      (match s.cause with
       | .none => 0 | .frameLength => 1 | .frameInFlight => 2 | .illegalCommand => 3 | .noOperand => 4 | .protocol => 5) ∧
    (s.causeMatches → (faultWord s = 0#32 ↔ s.ft = false))

/-- R17: a read returns the register's word where R17 gives one and some word elsewhere, at index 0 a
32-bit one. It changes nothing of the block, with a fault latched too. Log entries 9 and 13: the model
keeps the word it returned and counts the words it drew. -/
def Obligations.ReadPortMap : Prop :=
  ∀ s : State,
    (s.rv = true → perform (.read 0) s = .next { s with readOut := some (s.raw.setWidth 64) }) ∧
    (s.sv = true → perform (.read 1) s = .next { s with readOut := some (s.sraw.setWidth 64) }) ∧
    (s.sv = true → perform (.read 2) s = .next { s with readOut := some s.sval }) ∧
    (s.pv = true → perform (.read 3) s = .next { s with readOut := some s.pri }) ∧
    (s.uv = true → perform (.read 4) s = .next { s with readOut := some s.sec }) ∧
    perform (.read 5) s = .next { s with readOut := some ((status s).setWidth 64) } ∧
    perform (.read 6) s = .next { s with readOut := some ((faultWord s).setWidth 64) } ∧
    ∀ index, ∃ t w, perform (.read index) s = .next t ∧
      t = { s with readOut := some w, draws := t.draws } ∧ (index = 0 → w.toNat < 2 ^ 32)

/-- R17, R30: the host cannot read FRAME: whatever it holds, a read answers the same. -/
def Obligations.FrameIsNotReadable : Prop :=
  ∀ (s : State) (m : Memory) (index : Nat),
    ∃ t t', perform (.read index) s = .next t ∧ perform (.read index) { s with frame := m } = .next t' ∧
      t'.readOut = t.readOut

/-! ### Invariants -/

/-- The invariant holds at reset, and at power-on with any admitted configuration and any inputs. Model's
choices: the configuration at reset (log entry 3), the data registers (5) and FRAME (6). -/
def Obligations.InvariantHoldsAtReset : Prop :=
  State.reset.Inv ∧ ∀ c host env turns, c.admitted = true → (State.start c host env turns).Inv

/-- R13, R74, R82, R16: every step keeps the register relations, the absence of NaNs, CAUSE in step with
FT, and the canonical form of FRAME, for every admitted configuration. Model's choices: after a reset
event the clauses on RAW, SRAW, SVAL, PRI and SEC hold of the values of log entries 5 and 7, and the
canonical form is that of log entry 6. -/
def Obligations.StepKeepsInvariant : Prop :=
  ∀ s t : State, s.Inv → step s = .next t → t.Inv

/-- R74: the relation of SVAL and SRAW in every reachable state. -/
def Obligations.ReachableRegisterRelations : Prop :=
  ∀ s : State, Reachable s → s.sv = true →
    s.sval = i2f s.cfg.fmt s.sraw.toInt ∧ s.sraw = (s.sraw.extractLsb' 0 24).signExtend 32

/-- R13: RAW's bits 31:24 and the range of SRAW in every reachable state. Before a register's first
write after a reset this speaks of its value of log entries 5 and 7. -/
def Obligations.ReachableRegisterRanges : Prop :=
  ∀ s : State, Reachable s →
    (∀ j, 24 ≤ j → s.raw.getLsbD j = false) ∧ -8388608 ≤ s.sraw.toInt ∧ s.sraw.toInt ≤ 8388607

/-- R140, R137: freshness over every step. A result marked fresh is the function of the frame now in
FRAME that the spec gives. -/
def Obligations.FreshResultsAreOfTheLoadedFrame : Prop :=
  ∀ (f : Fresh) (s t : State), f.holds s → step s = .next t →
    (t.ft = false → (f.after (nextEvent s)).holds t) ∧ (t.ft = true → f.holds t)

/-! ### Runs -/

/-- R137, R140: freshness over a whole run that latched no fault. The results marked fresh are those of
the frame in FRAME, and where UV is set, SEC is marked fresh exactly if the last full conversion came
after the last XFER_DONE. Log entry 18: which sequences count as a full conversion. -/
def Obligations.FreshnessOverARun : Prop :=
  ∀ (c : Config) (es : List Event) (t : State), Run c es t → t.ft = false →
    (Fresh.over es).holds t ∧
    (t.uv = true → ((Fresh.over es).secondary = true ↔ convertsMostRecentFrame es))

/-- R140: a run that has read the most recent frame shows, at the read port, the results of the bytes
its last XFER_DONE delivered. -/
def Obligations.GoodRunShowsTheMostRecentFrame : Prop :=
  ∀ (c : Config) (es : List Event) (t : State), Run c es t → hasReadMostRecentFrame es t →
    ∃ bytes after, sinceLastTransfer es = some (bytes, after) ∧ bytes.length = 8 ∧
      specifiedWord t 0 = some ((decodeFrame (Memory.writeFrame [] bytes)).setWidth 64) ∧
      specifiedWord t 1 = some ((sextCode (decodeFrame (Memory.writeFrame [] bytes))).setWidth 64) ∧
      specifiedWord t 2 = some (svalOf c.fmt (decodeFrame (Memory.writeFrame [] bytes))) ∧
      specifiedWord t 3 = some (cal c (svalOf c.fmt (decodeFrame (Memory.writeFrame [] bytes)))) ∧
      specifiedWord t 4 = some (ucv c (cal c (svalOf c.fmt (decodeFrame (Memory.writeFrame [] bytes)))))

/-- R140: a run ends when the host stops issuing steps. From its end on no command and no read arrives,
and by R10, R33, R34 and R137 nothing but a reset changes the result registers and their valid bits.
Log entry 18, DEDUCED: the host has stopped when it has no step or no turn left, and the environment and
reset may still step. -/
def Obligations.EndedRunStaysEnded : Prop :=
  ∀ s t : State, s.hostStopped → step s = .next t →
    t.hostStopped ∧ (∀ w, nextEvent s ≠ .command w) ∧ (∀ index, nextEvent s ≠ .read index) ∧
    (nextEvent s ≠ .reset →
      t.raw = s.raw ∧ t.sraw = s.sraw ∧ t.sval = s.sval ∧ t.pri = s.pri ∧ t.sec = s.sec ∧
      t.rv = s.rv ∧ t.sv = s.sv ∧ t.pv = s.pv ∧ t.uv = s.uv)
end

