-- ==== Sys2Proof/Laws/Ieee.lean ====
section
/-! SUPPORT. The binary formats: packing and reading patterns, patterns as numbers of quanta, rounding
to a whole number, and the sign and value of negated and rounded patterns. -/

namespace Sys2Proof.Machine

/-- A quantum's weight in a pattern is even, so a pattern is even when its fraction is. -/
theorem pow_frac_even (f : Format) : 2 ^ f.fracBits % 2 = 0 := by cases f <;> simp [Format.fracBits]

/-- A magnitude fits below the sign bit. -/
theorem infMagnitude_lt_signWeight (f : Format) : f.infMagnitude < f.signWeight := by
  cases f <;> simp [Format.infMagnitude, Format.signWeight, Format.fracBits, Format.expBits]

/-- A pattern fits its container. -/
theorem signWeight_le (f : Format) : 2 * f.signWeight ≤ 2 ^ 64 := by
  cases f <;> simp [Format.signWeight, Format.fracBits, Format.expBits]

/-- A pattern is a sign bit above a magnitude. -/
theorem width_eq (f : Format) : 2 ^ f.width = 2 * f.signWeight := by
  cases f <;> simp [Format.width, Format.signWeight, Format.fracBits, Format.expBits]

/-- The number a packed pattern is. -/
theorem toNat_pack (f : Format) (neg : Bool) {m : Nat} (h : m < f.signWeight) :
    (fpPack f neg m).toNat = (if neg then f.signWeight else 0) + m := by
  have := signWeight_le f
  rw [fpPack, BitVec.toNat_ofNat, Nat.mod_eq_of_lt]
  split <;> omega

/-- The magnitude packed is the magnitude read. -/
theorem fpMagnitude_pack (f : Format) (neg : Bool) {m : Nat} (h : m < f.signWeight) :
    fpMagnitude f (fpPack f neg m) = m := by
  rw [fpMagnitude, toNat_pack f neg h]
  cases neg <;> simp [Nat.mod_eq_of_lt h]

/-- The sign bit as a number. -/
theorem fpNegative_eq (f : Format) (w : FpWord) : fpNegative f w = decide (w.toNat / f.signWeight % 2 = 1) := by
  rw [fpNegative, BitVec.getLsbD, Nat.testBit, Nat.shiftRight_eq_div_pow, Format.signWeight]
  simp [Nat.and_comm 1, Nat.and_one_is_mod, beq_eq_decide]

/-- The sign packed is the sign read. -/
theorem fpNegative_pack (f : Format) (neg : Bool) {m : Nat} (h : m < f.signWeight) :
    fpNegative f (fpPack f neg m) = neg := by
  have h0 : 0 < f.signWeight := by omega
  rw [fpNegative_eq, toNat_pack f neg h]
  cases neg <;> simp [Nat.div_eq_of_lt h, Nat.add_div_left, h0]

/-- A packed pattern fits the width of its format. -/
theorem isPattern_pack (f : Format) (neg : Bool) {m : Nat} (h : m < f.signWeight) :
    isPattern f (fpPack f neg m) = true := by
  rw [isPattern, toNat_pack f neg h, width_eq]
  cases neg <;> simp <;> omega

/-- A pattern is its sign and its magnitude. -/
theorem pack_self (f : Format) {w : FpWord} (h : isPattern f w = true) :
    fpPack f (fpNegative f w) (fpMagnitude f w) = w := by
  have h0 : 0 < f.signWeight := by unfold Format.signWeight; positivity
  simp only [isPattern, width_eq, decide_eq_true_eq] at h
  apply BitVec.eq_of_toNat_eq
  rw [fpMagnitude, toNat_pack f _ (Nat.mod_lt _ h0), fpNegative_eq]
  have hd : w.toNat / f.signWeight < 2 := (Nat.div_lt_iff_lt_mul h0).mpr h
  have := Nat.div_add_mod w.toNat f.signWeight
  have hc := Nat.le_one_iff_eq_zero_or_eq_one.mp (Nat.lt_succ_iff.mp hd)
  generalize w.toNat / f.signWeight = q at *
  generalize w.toNat % f.signWeight = r at *
  rcases hc with rfl | rfl <;> simp <;> omega

/-- A rounded magnitude is at most infinity. -/
theorem roundMagnitude_le (f : Format) (n d : Nat) : roundMagnitude f n d ≤ f.infMagnitude := Nat.min_le_left _ _

/-- A rounded magnitude fits below the sign bit. -/
theorem roundMagnitude_lt (f : Format) (n d : Nat) : roundMagnitude f n d < f.signWeight :=
  Nat.lt_of_le_of_lt (roundMagnitude_le f n d) (infMagnitude_lt_signWeight f)


/-- What rounding to a whole number can give: the quotient or the next number. -/
theorem roundHalfEven_cases (n : Nat) {d : Nat} (hd : 0 < d) :
    ∃ q r, n = q * d + r ∧ r < d ∧
      ((roundHalfEven n d = q ∧ 2 * r ≤ d ∧ (2 * r = d → q % 2 = 0)) ∨
       (roundHalfEven n d = q + 1 ∧ d ≤ 2 * r ∧ (2 * r = d → q % 2 = 1))) := by
  refine ⟨n / d, n % d, (Nat.div_add_mod' n d).symm, Nat.mod_lt n hd, ?_⟩
  unfold roundHalfEven
  generalize n / d = q
  generalize n % d = r
  split
  · left; omega
  · split
    · right; omega
    · omega

/-- The whole number nearest to `n / d`, and an even one at equal distance. -/
theorem roundHalfEven_nearest (n : Nat) {d : Nat} (hd : 0 < d) (k : Nat) :
    ((roundHalfEven n d * d : Int) - n).natAbs ≤ ((k * d : Int) - n).natAbs ∧
    (((roundHalfEven n d * d : Int) - n).natAbs = ((k * d : Int) - n).natAbs → k ≠ roundHalfEven n d →
      roundHalfEven n d % 2 = 0) := by
  obtain ⟨q, r, rfl, hr, h⟩ := roundHalfEven_cases n hd
  have hk : (k < q → (k * d : Int) ≤ q * d - d) ∧ (k = q → (k * d : Int) = q * d) ∧
      (k = q + 1 → (k * d : Int) = q * d + d) ∧ (q + 2 ≤ k → (q * d + 2 * d : Int) ≤ k * d) := by
    refine ⟨fun h => ?_, fun h => by rw [h], fun h => by rw [h]; push_cast; ring, fun h => ?_⟩
    · have : (k : Int) ≤ q - 1 := by omega
      nlinarith
    · have : (q : Int) + 2 ≤ k := by omega
      nlinarith
  push_cast
  rcases h with ⟨h1, h2, h3⟩ | ⟨h1, h2, h3⟩ <;> rw [h1]
  · generalize (k * d : Int) = x at *
    generalize (q * d : Int) = y at *
    omega
  · have : ((q + 1 : Nat) * d : Int) = q * d + d := by push_cast; ring
    rw [this]
    generalize (k * d : Int) = x at *
    generalize (q * d : Int) = y at *
    omega

/-- There is at least one fraction bit. -/
theorem one_lt_pow_frac (f : Format) : 2 ≤ 2 ^ f.fracBits := by cases f <;> simp [Format.fracBits]

/-- `e` binades up, the pattern of the `s`-th quantum stands for `s * 2 ^ e` units. -/
theorem magnitudeUnits_grid (f : Format) {e s : Nat} (hs : s ≤ 2 * 2 ^ f.fracBits)
    (h : e = 0 ∨ 2 ^ f.fracBits ≤ s) : magnitudeUnits f (e * 2 ^ f.fracBits + s) = s * 2 ^ e := by
  have h0 := one_lt_pow_frac f
  unfold magnitudeUnits
  generalize 2 ^ f.fracBits = P at *
  rcases Nat.lt_or_ge s P with hlt | hge
  · obtain rfl : e = 0 := by omega
    simp [Nat.div_eq_of_lt hlt, Nat.mod_eq_of_lt hlt]
  · rcases Nat.lt_or_ge s (2 * P) with hlt2 | hge2
    · obtain ⟨r, rfl⟩ := Nat.exists_eq_add_of_le hge
      have hr : r < P := by omega
      have hdiv : (e * P + (P + r)) / P = e + 1 := by
        rw [show e * P + (P + r) = P * (e + 1) + r by ring, Nat.mul_add_div (by omega), Nat.div_eq_of_lt hr]
      have hmod : (e * P + (P + r)) % P = r := by
        rw [show e * P + (P + r) = P * (e + 1) + r by ring, Nat.mul_add_mod, Nat.mod_eq_of_lt hr]
      rw [hdiv, hmod]; simp
    · obtain rfl : s = 2 * P := by omega
      have hdiv : (e * P + 2 * P) / P = e + 2 := by
        rw [show e * P + 2 * P = P * (e + 2) by ring, Nat.mul_div_cancel_left _ (by omega)]
      have hmod : (e * P + 2 * P) % P = 0 := by
        rw [show e * P + 2 * P = P * (e + 2) by ring, Nat.mul_mod_right]
      rw [hdiv, hmod]; simp; ring

/-- Every pattern is a number of quanta of its binade. -/
theorem grid_of_pattern (f : Format) (p : Nat) :
    ∃ e s, p = e * 2 ^ f.fracBits + s ∧ s < 2 * 2 ^ f.fracBits ∧ (e = 0 ∨ 2 ^ f.fracBits ≤ s) := by
  have h0 := one_lt_pow_frac f
  generalize 2 ^ f.fracBits = P at *
  have hm := Nat.mod_lt p (show 0 < P by omega)
  have hd := Nat.div_add_mod' p P
  rcases Nat.eq_zero_or_pos (p / P) with h | h
  · exact ⟨0, p % P, by rw [h] at hd; omega, by omega, .inl rfl⟩
  · refine ⟨p / P - 1, P + p % P, ?_, by omega, .inr (by omega)⟩
    obtain ⟨e, he⟩ := Nat.exists_eq_add_of_lt h
    rw [he] at hd ⊢
    simp at hd ⊢
    nlinarith

/-- The next pattern stands for a greater value. -/
theorem magnitudeUnits_succ_lt (f : Format) (p : Nat) : magnitudeUnits f p < magnitudeUnits f (p + 1) := by
  obtain ⟨e, s, rfl, hs, h⟩ := grid_of_pattern f p
  rw [magnitudeUnits_grid f (by omega) h, Nat.add_assoc, magnitudeUnits_grid f (by omega) (by omega)]
  exact Nat.mul_lt_mul_of_pos_right (by omega) (by positivity)

/-- Patterns are ordered as their values. -/
theorem magnitudeUnits_strictMono (f : Format) : StrictMono (magnitudeUnits f) :=
  strictMono_nat_of_lt_succ (magnitudeUnits_succ_lt f)

/-- The binade of a number. -/
theorem log2_bounds {m : Nat} (h : m ≠ 0) : 2 ^ Nat.log2 m ≤ m ∧ m < 2 ^ (Nat.log2 m + 1) :=
  ⟨Nat.log2_self_le h, Nat.lt_log2_self⟩

/-- Before it is cut at infinity, a rounded magnitude is a number of quanta of the binade of `n / d`. -/
theorem rounding_grid (f : Format) (n : Nat) {d : Nat} (hd : 0 < d) :
    roundHalfEven n (d * 2 ^ quantumExponent f n d) ≤ 2 * 2 ^ f.fracBits ∧
    (quantumExponent f n d = 0 ∨ (2 ^ f.fracBits ≤ roundHalfEven n (d * 2 ^ quantumExponent f n d) ∧
      2 ^ f.fracBits * 2 ^ quantumExponent f n d * d ≤ n)) := by
  have hD : 0 < d * 2 ^ quantumExponent f n d := by positivity
  have key : n < 2 * 2 ^ f.fracBits * (d * 2 ^ quantumExponent f n d) ∧
      (quantumExponent f n d = 0 ∨ 2 ^ f.fracBits * (d * 2 ^ quantumExponent f n d) ≤ n) := by
    have hnd : n < (n / d + 1) * d := by
      have := Nat.div_add_mod' n d; have := Nat.mod_lt n hd; nlinarith
    have hnd' : n / d * d ≤ n := Nat.div_mul_le_self n d
    unfold quantumExponent
    by_cases hz : n / d = 0
    · rw [hz] at hnd ⊢
      simp at hnd ⊢
      have := one_lt_pow_frac f
      nlinarith
    · obtain ⟨h1, h2⟩ := log2_bounds hz
      generalize Nat.log2 (n / d) = L at *
      generalize n / d = m at *
      rcases Nat.le_total L f.fracBits with hl | hl
      · rw [Nat.sub_eq_zero_of_le hl]
        refine ⟨?_, .inl rfl⟩
        have : 2 ^ (L + 1) ≤ 2 * 2 ^ f.fracBits := by
          rw [← Nat.pow_succ']; exact Nat.pow_le_pow_right (by omega) (by omega)
        simp
        calc n < (m + 1) * d := hnd
          _ ≤ (2 * 2 ^ f.fracBits) * d := Nat.mul_le_mul_right d (by omega)
      · obtain ⟨k, rfl⟩ := Nat.exists_eq_add_of_le hl
        simp only [Nat.add_sub_cancel_left]
        rw [Nat.pow_add] at h1
        rw [show f.fracBits + k + 1 = (f.fracBits + 1) + k by omega, Nat.pow_add, Nat.pow_succ] at h2
        constructor
        · calc n < (m + 1) * d := hnd
            _ ≤ (2 ^ f.fracBits * 2 * 2 ^ k) * d := Nat.mul_le_mul_right d (by omega)
            _ = _ := by ring
        · right
          calc 2 ^ f.fracBits * (d * 2 ^ k) = (2 ^ f.fracBits * 2 ^ k) * d := by ring
            _ ≤ m * d := Nat.mul_le_mul_right d h1
            _ ≤ n := hnd'
  obtain ⟨q, r, hn, hr, h⟩ := roundHalfEven_cases n hD
  generalize hDD : d * 2 ^ quantumExponent f n d = D at *
  have hq : q < 2 * 2 ^ f.fracBits := by
    by_contra hc
    rw [not_lt] at hc
    have := Nat.mul_le_mul_right D hc
    omega
  refine ⟨by omega, ?_⟩
  rcases key.2 with h0 | h0
  · exact .inl h0
  · right
    have hq2 : 2 ^ f.fracBits ≤ q := by
      by_contra hc
      rw [not_le] at hc
      have := Nat.mul_le_mul_right D (show q + 1 ≤ 2 ^ f.fracBits by omega)
      nlinarith
    refine ⟨by omega, ?_⟩
    calc _ = 2 ^ f.fracBits * D := by rw [← hDD]; ring
      _ ≤ n := h0

/-- A finite pattern is classified as its sign and its value. -/
theorem classify_of_finite {f : Format} {w : FpWord} (h : isFinite f w = true) :
    classify f w = .finite (fpNegative f w) (fpUnits f w) := by
  have hn : isNaN f w = false := by
    simp only [isFinite, isNaN, decide_eq_true_eq, decide_eq_false_iff_not] at *; omega
  simp [classify, hn, h]

/-- The magnitude of a rounded value. -/
theorem fl_magnitude (f : Format) (a : Bool) (v : Int) (d : Nat) :
    fpMagnitude f (fl f a v d) = roundMagnitude f v.natAbs d := fpMagnitude_pack f _ (roundMagnitude_lt f _ _)

/-- The sign of a rounded value. -/
theorem fl_negative (f : Format) (a : Bool) (v : Int) (d : Nat) :
    fpNegative f (fl f a v d) = if v = 0 then a else decide (v < 0) := fpNegative_pack f _ (roundMagnitude_lt f _ _)

/-- A rounded value fits the width of its format. -/
theorem fl_isPattern (f : Format) (a : Bool) (v : Int) (d : Nat) : isPattern f (fl f a v d) = true :=
  isPattern_pack f _ (roundMagnitude_lt f _ _)

/-- The magnitude of a value. -/
theorem natAbs_units (f : Format) (w : FpWord) : (fpUnits f w).natAbs = magnitudeUnits f (fpMagnitude f w) := by
  unfold fpUnits; split <;> simp

/-- The sign bit of a value other than 0 is its sign. -/
theorem units_lt_zero (f : Format) (w : FpWord) (h : fpUnits f w ≠ 0) : decide (fpUnits f w < 0) = fpNegative f w := by
  unfold fpUnits at *
  cases hn : fpNegative f w <;> (simp [hn] at *; try omega)

/-- Negation keeps the magnitude. -/
theorem negate_magnitude (f : Format) (w : FpWord) : fpMagnitude f (fpNegate f w) = fpMagnitude f w := by
  unfold fpMagnitude fpNegate Format.signWeight
  apply Nat.eq_of_testBit_eq
  intro i
  simp only [BitVec.toNat_xor, BitVec.toNat_ofNat, Nat.testBit_mod_two_pow, Nat.testBit_xor, Nat.testBit_two_pow]
  by_cases h : i < f.expBits + f.fracBits
  · have : ¬ (f.expBits + f.fracBits = i) := by omega
    simp [h, this]
  · simp [h]

/-- Negation flips the sign bit. -/
theorem negate_negative (f : Format) (w : FpWord) : fpNegative f (fpNegate f w) = !fpNegative f w := by
  unfold fpNegative fpNegate Format.signWeight
  have : f.expBits + f.fracBits < 64 := by cases f <;> decide
  have h2 : (BitVec.ofNat 64 (2 ^ (f.expBits + f.fracBits))).getLsbD (f.expBits + f.fracBits) = true := by
    cases f <;> decide +kernel
  rw [BitVec.getLsbD_xor, h2]; simp

/-- Negation negates the value. -/
theorem negate_units (f : Format) (w : FpWord) : fpUnits f (fpNegate f w) = - fpUnits f w := by
  unfold fpUnits; rw [negate_magnitude, negate_negative]; cases fpNegative f w <;> simp

/-- An infinity is classified as one, with its sign. -/
theorem classify_infinity (f : Format) (a : Bool) : classify f (fpInfinity f a) = .infinite a := by
  have h := infMagnitude_lt_signWeight f
  simp [classify, isNaN, isFinite, fpInfinity, fpMagnitude_pack f a h, fpNegative_pack f a h]

/-- Negation keeps finiteness. -/
theorem negate_finite (f : Format) (w : FpWord) : isFinite f (fpNegate f w) = isFinite f w := by
  unfold isFinite; rw [negate_magnitude]

end Sys2Proof.Machine
end

