-- ==== Sys2Proof/Laws/Memory.lean ====
section
/-! SUPPORT. The frame buffer: a read after a write, and the canonical form that every write keeps. -/

namespace Sys2Proof.Machine

/-- Every key of the list is above `a`. -/
def Memory.above (a : Nat) (m : Memory) : Prop := ∀ c ∈ m, a < c.1

theorem Memory.wf_cons {k : Nat} {v : Byte} {m : Memory} :
    Memory.wf ((k, v) :: m) = true ↔
      k < frameLen ∧ v ≠ Memory.unlisted ∧ Memory.above k m ∧ Memory.wf m = true := by
  simp [Memory.wf, Memory.above, and_assoc]

theorem Memory.lookup_of_above {a : Nat} : ∀ {m : Memory}, Memory.above a m → Memory.lookup a m = Memory.unlisted
  | [], _ => rfl
  | (k, v) :: rest, h => by
    have hk : a < k := h (k, v) (by simp)
    have hr : Memory.above a rest := fun c hc => h c (by simp [hc])
    simp [Memory.lookup, Nat.ne_of_lt hk, Memory.lookup_of_above hr]

theorem Memory.lookup_cons_same {a : Nat} {b : Byte} {m : Memory} (h : Memory.above a m) :
    Memory.lookup a (Memory.cons a b m) = b := by
  unfold Memory.cons
  split
  · rename_i hb
    rw [hb, Memory.lookup_of_above h]
  · simp [Memory.lookup]

theorem Memory.lookup_cons_other {a c : Nat} {b : Byte} {m : Memory} (h : c ≠ a) :
    Memory.lookup c (Memory.cons a b m) = Memory.lookup c m := by
  unfold Memory.cons
  split
  · rfl
  · simp [Memory.lookup, h]

theorem Memory.above_of_lt {a k : Nat} {m : Memory} (h : Memory.above k m) (hak : a < k) : Memory.above a m :=
  fun c hc => Nat.lt_trans hak (h c hc)

/-- A read after a write to the same key gives what was written. -/
theorem Memory.lookup_update_same {a : Nat} {b : Byte} :
    ∀ {m : Memory}, Memory.wf m = true → Memory.lookup a (Memory.update a b m) = b
  | [], _ => by simpa [Memory.update] using Memory.lookup_cons_same (a := a) (b := b) (m := []) (by simp [Memory.above])
  | (k, v) :: rest, h => by
    obtain ⟨-, -, hab, hwf⟩ := Memory.wf_cons.mp h
    unfold Memory.update
    split
    · rename_i hak
      refine Memory.lookup_cons_same fun c hc => ?_
      rcases List.mem_cons.mp hc with rfl | hc
      · exact hak
      · exact Nat.lt_trans hak (hab c hc)
    · split
      · rename_i hak
        exact Memory.lookup_cons_same (hak ▸ hab)
      · rename_i hak
        simp [Memory.lookup, hak, Memory.lookup_update_same hwf]

/-- A write leaves every other key alone. -/
theorem Memory.lookup_update_other {a c : Nat} {b : Byte} (h : c ≠ a) :
    ∀ {m : Memory}, Memory.lookup c (Memory.update a b m) = Memory.lookup c m
  | [] => Memory.lookup_cons_other h
  | (k, v) :: rest => by
    unfold Memory.update
    split
    · exact Memory.lookup_cons_other h
    · split
      · rename_i hak
        rw [Memory.lookup_cons_other h]
        simp [Memory.lookup, hak ▸ h]
      · simp [Memory.lookup, Memory.lookup_update_other h]

theorem Memory.above_update {k a : Nat} {b : Byte} (hka : k < a) :
    ∀ {m : Memory}, Memory.above k m → Memory.above k (Memory.update a b m)
  | [], _ => by
    unfold Memory.update Memory.cons
    split <;> simp [Memory.above, hka]
  | (j, v) :: rest, h => by
    have hj : k < j := h (j, v) (by simp)
    have hr : Memory.above k rest := fun c hc => h c (by simp [hc])
    unfold Memory.update Memory.cons
    split
    · split
      · exact h
      · intro c hc
        rcases List.mem_cons.mp hc with rfl | hc
        · exact hka
        · exact h c hc
    · split
      · split
        · exact hr
        · intro c hc
          rcases List.mem_cons.mp hc with rfl | hc
          · exact hka
          · exact hr c hc
      · intro c hc
        rcases List.mem_cons.mp hc with rfl | hc
        · exact hj
        · exact Memory.above_update hka hr c hc

theorem Memory.wf_consEntry {a : Nat} {b : Byte} {m : Memory} (ha : a < frameLen) (hab : Memory.above a m)
    (h : Memory.wf m = true) : Memory.wf (Memory.cons a b m) = true := by
  unfold Memory.cons
  split
  · exact h
  · rename_i hb
    exact Memory.wf_cons.mpr ⟨ha, hb, hab, h⟩

/-- A write keeps the canonical form. -/
theorem Memory.wf_update {a : Nat} {b : Byte} (ha : a < frameLen) :
    ∀ {m : Memory}, Memory.wf m = true → Memory.wf (Memory.update a b m) = true
  | [], _ => Memory.wf_consEntry ha (by simp [Memory.above]) rfl
  | (k, v) :: rest, h => by
    obtain ⟨hk, hv, hab, hwf⟩ := Memory.wf_cons.mp h
    unfold Memory.update
    split
    · rename_i hak
      refine Memory.wf_consEntry ha (fun c hc => ?_) h
      rcases List.mem_cons.mp hc with rfl | hc
      · exact hak
      · exact Nat.lt_trans hak (hab c hc)
    · split
      · rename_i hak
        exact Memory.wf_consEntry ha (hak ▸ hab) hwf
      · exact Memory.wf_cons.mpr ⟨hk, hv, Memory.above_update (by omega) hab, Memory.wf_update ha hwf⟩

/-- The byte written is the byte read. -/
theorem Memory.read_write_same {m : Memory} (h : Memory.wf m = true) (i : Fin 8) (b : Byte) :
    (m.write i b).read i = b := Memory.lookup_update_same h

/-- Every other byte reads as before. -/
theorem Memory.read_write_other (m : Memory) {i j : Fin 8} (h : j ≠ i) (b : Byte) :
    (m.write i b).read j = m.read j := Memory.lookup_update_other fun e => h (Fin.ext e)

/-- A write keeps the canonical form. -/
theorem Memory.wf_write {m : Memory} (h : Memory.wf m = true) (i : Fin 8) (b : Byte) :
    Memory.wf (m.write i b) = true := Memory.wf_update i.isLt h

/-- Storing a frame keeps the canonical form. -/
theorem Memory.wf_writeFrame {m : Memory} (h : Memory.wf m = true) (bytes : List Byte) :
    Memory.wf (m.writeFrame bytes) = true := by
  simp only [Memory.writeFrame, frameIndices, List.foldl]
  repeat first | exact h | apply Memory.wf_write

/-- Byte `i` of a stored frame is the `i`-th byte delivered. -/
theorem Memory.read_writeFrame {m : Memory} (h : Memory.wf m = true) (bytes : List Byte) (i : Fin 8) :
    (m.writeFrame bytes).read i = bytes.getD i.val Memory.unlisted := by
  simp only [Memory.writeFrame, frameIndices, List.foldl]
  fin_cases i
  all_goals
    repeat rw [Memory.read_write_other _ (by decide)]
    exact Memory.read_write_same (by repeat first | exact h | apply Memory.wf_write) _ _

end Sys2Proof.Machine
end

