-- ==== Sys2Proof/Laws/State.lean ====
section
/-! SUPPORT. Each field after each named update of the state: what it was set to, or what it was. -/

namespace Sys2Proof.Machine

variable (s : State)

@[simp] theorem State.setRaw_fstate (v : Word32) : (s.setRaw v).fstate = s.fstate := rfl
@[simp] theorem State.setRaw_frame (v : Word32) : (s.setRaw v).frame = s.frame := rfl
@[simp] theorem State.setRaw_raw (v : Word32) : (s.setRaw v).raw = v := rfl
@[simp] theorem State.setRaw_rv (v : Word32) : (s.setRaw v).rv = true := rfl
@[simp] theorem State.setRaw_sraw (v : Word32) : (s.setRaw v).sraw = s.sraw := rfl
@[simp] theorem State.setRaw_sval (v : Word32) : (s.setRaw v).sval = s.sval := rfl
@[simp] theorem State.setRaw_sv (v : Word32) : (s.setRaw v).sv = s.sv := rfl
@[simp] theorem State.setRaw_pri (v : Word32) : (s.setRaw v).pri = s.pri := rfl
@[simp] theorem State.setRaw_pv (v : Word32) : (s.setRaw v).pv = s.pv := rfl
@[simp] theorem State.setRaw_sec (v : Word32) : (s.setRaw v).sec = s.sec := rfl
@[simp] theorem State.setRaw_uv (v : Word32) : (s.setRaw v).uv = s.uv := rfl
@[simp] theorem State.setRaw_ft (v : Word32) : (s.setRaw v).ft = s.ft := rfl
@[simp] theorem State.setRaw_cause (v : Word32) : (s.setRaw v).cause = s.cause := rfl
@[simp] theorem State.setRaw_cfg (v : Word32) : (s.setRaw v).cfg = s.cfg := rfl
@[simp] theorem State.setRaw_hostQueue (v : Word32) : (s.setRaw v).hostQueue = s.hostQueue := rfl
@[simp] theorem State.setRaw_envQueue (v : Word32) : (s.setRaw v).envQueue = s.envQueue := rfl
@[simp] theorem State.setRaw_schedule (v : Word32) : (s.setRaw v).schedule = s.schedule := rfl
@[simp] theorem State.setRaw_readOut (v : Word32) : (s.setRaw v).readOut = s.readOut := rfl
@[simp] theorem State.setRaw_draws (v : Word32) : (s.setRaw v).draws = s.draws := rfl

@[simp] theorem State.setSigned_fstate (n : Word32) (v : FpWord) : (s.setSigned n v).fstate = s.fstate := rfl
@[simp] theorem State.setSigned_frame (n : Word32) (v : FpWord) : (s.setSigned n v).frame = s.frame := rfl
@[simp] theorem State.setSigned_raw (n : Word32) (v : FpWord) : (s.setSigned n v).raw = s.raw := rfl
@[simp] theorem State.setSigned_rv (n : Word32) (v : FpWord) : (s.setSigned n v).rv = s.rv := rfl
@[simp] theorem State.setSigned_sraw (n : Word32) (v : FpWord) : (s.setSigned n v).sraw = n := rfl
@[simp] theorem State.setSigned_sval (n : Word32) (v : FpWord) : (s.setSigned n v).sval = v := rfl
@[simp] theorem State.setSigned_sv (n : Word32) (v : FpWord) : (s.setSigned n v).sv = true := rfl
@[simp] theorem State.setSigned_pri (n : Word32) (v : FpWord) : (s.setSigned n v).pri = s.pri := rfl
@[simp] theorem State.setSigned_pv (n : Word32) (v : FpWord) : (s.setSigned n v).pv = s.pv := rfl
@[simp] theorem State.setSigned_sec (n : Word32) (v : FpWord) : (s.setSigned n v).sec = s.sec := rfl
@[simp] theorem State.setSigned_uv (n : Word32) (v : FpWord) : (s.setSigned n v).uv = s.uv := rfl
@[simp] theorem State.setSigned_ft (n : Word32) (v : FpWord) : (s.setSigned n v).ft = s.ft := rfl
@[simp] theorem State.setSigned_cause (n : Word32) (v : FpWord) : (s.setSigned n v).cause = s.cause := rfl
@[simp] theorem State.setSigned_cfg (n : Word32) (v : FpWord) : (s.setSigned n v).cfg = s.cfg := rfl
@[simp] theorem State.setSigned_hostQueue (n : Word32) (v : FpWord) : (s.setSigned n v).hostQueue = s.hostQueue := rfl
@[simp] theorem State.setSigned_envQueue (n : Word32) (v : FpWord) : (s.setSigned n v).envQueue = s.envQueue := rfl
@[simp] theorem State.setSigned_schedule (n : Word32) (v : FpWord) : (s.setSigned n v).schedule = s.schedule := rfl
@[simp] theorem State.setSigned_readOut (n : Word32) (v : FpWord) : (s.setSigned n v).readOut = s.readOut := rfl
@[simp] theorem State.setSigned_draws (n : Word32) (v : FpWord) : (s.setSigned n v).draws = s.draws := rfl

@[simp] theorem State.setPrimary_fstate (p : FpWord) : (s.setPrimary p).fstate = s.fstate := rfl
@[simp] theorem State.setPrimary_frame (p : FpWord) : (s.setPrimary p).frame = s.frame := rfl
@[simp] theorem State.setPrimary_raw (p : FpWord) : (s.setPrimary p).raw = s.raw := rfl
@[simp] theorem State.setPrimary_rv (p : FpWord) : (s.setPrimary p).rv = s.rv := rfl
@[simp] theorem State.setPrimary_sraw (p : FpWord) : (s.setPrimary p).sraw = s.sraw := rfl
@[simp] theorem State.setPrimary_sval (p : FpWord) : (s.setPrimary p).sval = s.sval := rfl
@[simp] theorem State.setPrimary_sv (p : FpWord) : (s.setPrimary p).sv = s.sv := rfl
@[simp] theorem State.setPrimary_pri (p : FpWord) : (s.setPrimary p).pri = p := rfl
@[simp] theorem State.setPrimary_pv (p : FpWord) : (s.setPrimary p).pv = true := rfl
@[simp] theorem State.setPrimary_sec (p : FpWord) : (s.setPrimary p).sec = s.sec := rfl
@[simp] theorem State.setPrimary_uv (p : FpWord) : (s.setPrimary p).uv = s.uv := rfl
@[simp] theorem State.setPrimary_ft (p : FpWord) : (s.setPrimary p).ft = s.ft := rfl
@[simp] theorem State.setPrimary_cause (p : FpWord) : (s.setPrimary p).cause = s.cause := rfl
@[simp] theorem State.setPrimary_cfg (p : FpWord) : (s.setPrimary p).cfg = s.cfg := rfl
@[simp] theorem State.setPrimary_hostQueue (p : FpWord) : (s.setPrimary p).hostQueue = s.hostQueue := rfl
@[simp] theorem State.setPrimary_envQueue (p : FpWord) : (s.setPrimary p).envQueue = s.envQueue := rfl
@[simp] theorem State.setPrimary_schedule (p : FpWord) : (s.setPrimary p).schedule = s.schedule := rfl
@[simp] theorem State.setPrimary_readOut (p : FpWord) : (s.setPrimary p).readOut = s.readOut := rfl
@[simp] theorem State.setPrimary_draws (p : FpWord) : (s.setPrimary p).draws = s.draws := rfl

@[simp] theorem State.setSecondary_fstate (u : FpWord) : (s.setSecondary u).fstate = s.fstate := rfl
@[simp] theorem State.setSecondary_frame (u : FpWord) : (s.setSecondary u).frame = s.frame := rfl
@[simp] theorem State.setSecondary_raw (u : FpWord) : (s.setSecondary u).raw = s.raw := rfl
@[simp] theorem State.setSecondary_rv (u : FpWord) : (s.setSecondary u).rv = s.rv := rfl
@[simp] theorem State.setSecondary_sraw (u : FpWord) : (s.setSecondary u).sraw = s.sraw := rfl
@[simp] theorem State.setSecondary_sval (u : FpWord) : (s.setSecondary u).sval = s.sval := rfl
@[simp] theorem State.setSecondary_sv (u : FpWord) : (s.setSecondary u).sv = s.sv := rfl
@[simp] theorem State.setSecondary_pri (u : FpWord) : (s.setSecondary u).pri = s.pri := rfl
@[simp] theorem State.setSecondary_pv (u : FpWord) : (s.setSecondary u).pv = s.pv := rfl
@[simp] theorem State.setSecondary_sec (u : FpWord) : (s.setSecondary u).sec = u := rfl
@[simp] theorem State.setSecondary_uv (u : FpWord) : (s.setSecondary u).uv = true := rfl
@[simp] theorem State.setSecondary_ft (u : FpWord) : (s.setSecondary u).ft = s.ft := rfl
@[simp] theorem State.setSecondary_cause (u : FpWord) : (s.setSecondary u).cause = s.cause := rfl
@[simp] theorem State.setSecondary_cfg (u : FpWord) : (s.setSecondary u).cfg = s.cfg := rfl
@[simp] theorem State.setSecondary_hostQueue (u : FpWord) : (s.setSecondary u).hostQueue = s.hostQueue := rfl
@[simp] theorem State.setSecondary_envQueue (u : FpWord) : (s.setSecondary u).envQueue = s.envQueue := rfl
@[simp] theorem State.setSecondary_schedule (u : FpWord) : (s.setSecondary u).schedule = s.schedule := rfl
@[simp] theorem State.setSecondary_readOut (u : FpWord) : (s.setSecondary u).readOut = s.readOut := rfl
@[simp] theorem State.setSecondary_draws (u : FpWord) : (s.setSecondary u).draws = s.draws := rfl

@[simp] theorem State.setTransfer_fstate (v : FState) : (s.setTransfer v).fstate = v := rfl
@[simp] theorem State.setTransfer_frame (v : FState) : (s.setTransfer v).frame = s.frame := rfl
@[simp] theorem State.setTransfer_raw (v : FState) : (s.setTransfer v).raw = s.raw := rfl
@[simp] theorem State.setTransfer_rv (v : FState) : (s.setTransfer v).rv = s.rv := rfl
@[simp] theorem State.setTransfer_sraw (v : FState) : (s.setTransfer v).sraw = s.sraw := rfl
@[simp] theorem State.setTransfer_sval (v : FState) : (s.setTransfer v).sval = s.sval := rfl
@[simp] theorem State.setTransfer_sv (v : FState) : (s.setTransfer v).sv = s.sv := rfl
@[simp] theorem State.setTransfer_pri (v : FState) : (s.setTransfer v).pri = s.pri := rfl
@[simp] theorem State.setTransfer_pv (v : FState) : (s.setTransfer v).pv = s.pv := rfl
@[simp] theorem State.setTransfer_sec (v : FState) : (s.setTransfer v).sec = s.sec := rfl
@[simp] theorem State.setTransfer_uv (v : FState) : (s.setTransfer v).uv = s.uv := rfl
@[simp] theorem State.setTransfer_ft (v : FState) : (s.setTransfer v).ft = s.ft := rfl
@[simp] theorem State.setTransfer_cause (v : FState) : (s.setTransfer v).cause = s.cause := rfl
@[simp] theorem State.setTransfer_cfg (v : FState) : (s.setTransfer v).cfg = s.cfg := rfl
@[simp] theorem State.setTransfer_hostQueue (v : FState) : (s.setTransfer v).hostQueue = s.hostQueue := rfl
@[simp] theorem State.setTransfer_envQueue (v : FState) : (s.setTransfer v).envQueue = s.envQueue := rfl
@[simp] theorem State.setTransfer_schedule (v : FState) : (s.setTransfer v).schedule = s.schedule := rfl
@[simp] theorem State.setTransfer_readOut (v : FState) : (s.setTransfer v).readOut = s.readOut := rfl
@[simp] theorem State.setTransfer_draws (v : FState) : (s.setTransfer v).draws = s.draws := rfl

@[simp] theorem State.setFrame_fstate (m : Memory) : (s.setFrame m).fstate = s.fstate := rfl
@[simp] theorem State.setFrame_frame (m : Memory) : (s.setFrame m).frame = m := rfl
@[simp] theorem State.setFrame_raw (m : Memory) : (s.setFrame m).raw = s.raw := rfl
@[simp] theorem State.setFrame_rv (m : Memory) : (s.setFrame m).rv = s.rv := rfl
@[simp] theorem State.setFrame_sraw (m : Memory) : (s.setFrame m).sraw = s.sraw := rfl
@[simp] theorem State.setFrame_sval (m : Memory) : (s.setFrame m).sval = s.sval := rfl
@[simp] theorem State.setFrame_sv (m : Memory) : (s.setFrame m).sv = s.sv := rfl
@[simp] theorem State.setFrame_pri (m : Memory) : (s.setFrame m).pri = s.pri := rfl
@[simp] theorem State.setFrame_pv (m : Memory) : (s.setFrame m).pv = s.pv := rfl
@[simp] theorem State.setFrame_sec (m : Memory) : (s.setFrame m).sec = s.sec := rfl
@[simp] theorem State.setFrame_uv (m : Memory) : (s.setFrame m).uv = s.uv := rfl
@[simp] theorem State.setFrame_ft (m : Memory) : (s.setFrame m).ft = s.ft := rfl
@[simp] theorem State.setFrame_cause (m : Memory) : (s.setFrame m).cause = s.cause := rfl
@[simp] theorem State.setFrame_cfg (m : Memory) : (s.setFrame m).cfg = s.cfg := rfl
@[simp] theorem State.setFrame_hostQueue (m : Memory) : (s.setFrame m).hostQueue = s.hostQueue := rfl
@[simp] theorem State.setFrame_envQueue (m : Memory) : (s.setFrame m).envQueue = s.envQueue := rfl
@[simp] theorem State.setFrame_schedule (m : Memory) : (s.setFrame m).schedule = s.schedule := rfl
@[simp] theorem State.setFrame_readOut (m : Memory) : (s.setFrame m).readOut = s.readOut := rfl
@[simp] theorem State.setFrame_draws (m : Memory) : (s.setFrame m).draws = s.draws := rfl

@[simp] theorem State.latch_fstate (c : Cause) : (s.latch c).fstate = s.fstate := rfl
@[simp] theorem State.latch_frame (c : Cause) : (s.latch c).frame = s.frame := rfl
@[simp] theorem State.latch_raw (c : Cause) : (s.latch c).raw = s.raw := rfl
@[simp] theorem State.latch_rv (c : Cause) : (s.latch c).rv = s.rv := rfl
@[simp] theorem State.latch_sraw (c : Cause) : (s.latch c).sraw = s.sraw := rfl
@[simp] theorem State.latch_sval (c : Cause) : (s.latch c).sval = s.sval := rfl
@[simp] theorem State.latch_sv (c : Cause) : (s.latch c).sv = s.sv := rfl
@[simp] theorem State.latch_pri (c : Cause) : (s.latch c).pri = s.pri := rfl
@[simp] theorem State.latch_pv (c : Cause) : (s.latch c).pv = s.pv := rfl
@[simp] theorem State.latch_sec (c : Cause) : (s.latch c).sec = s.sec := rfl
@[simp] theorem State.latch_uv (c : Cause) : (s.latch c).uv = s.uv := rfl
@[simp] theorem State.latch_ft (c : Cause) : (s.latch c).ft = true := rfl
@[simp] theorem State.latch_cause (c : Cause) : (s.latch c).cause = c := rfl
@[simp] theorem State.latch_cfg (c : Cause) : (s.latch c).cfg = s.cfg := rfl
@[simp] theorem State.latch_hostQueue (c : Cause) : (s.latch c).hostQueue = s.hostQueue := rfl
@[simp] theorem State.latch_envQueue (c : Cause) : (s.latch c).envQueue = s.envQueue := rfl
@[simp] theorem State.latch_schedule (c : Cause) : (s.latch c).schedule = s.schedule := rfl
@[simp] theorem State.latch_readOut (c : Cause) : (s.latch c).readOut = s.readOut := rfl
@[simp] theorem State.latch_draws (c : Cause) : (s.latch c).draws = s.draws := rfl

@[simp] theorem State.answerRead_fstate (w : PortWord) (k : Nat) : (s.answerRead w k).fstate = s.fstate := rfl
@[simp] theorem State.answerRead_frame (w : PortWord) (k : Nat) : (s.answerRead w k).frame = s.frame := rfl
@[simp] theorem State.answerRead_raw (w : PortWord) (k : Nat) : (s.answerRead w k).raw = s.raw := rfl
@[simp] theorem State.answerRead_rv (w : PortWord) (k : Nat) : (s.answerRead w k).rv = s.rv := rfl
@[simp] theorem State.answerRead_sraw (w : PortWord) (k : Nat) : (s.answerRead w k).sraw = s.sraw := rfl
@[simp] theorem State.answerRead_sval (w : PortWord) (k : Nat) : (s.answerRead w k).sval = s.sval := rfl
@[simp] theorem State.answerRead_sv (w : PortWord) (k : Nat) : (s.answerRead w k).sv = s.sv := rfl
@[simp] theorem State.answerRead_pri (w : PortWord) (k : Nat) : (s.answerRead w k).pri = s.pri := rfl
@[simp] theorem State.answerRead_pv (w : PortWord) (k : Nat) : (s.answerRead w k).pv = s.pv := rfl
@[simp] theorem State.answerRead_sec (w : PortWord) (k : Nat) : (s.answerRead w k).sec = s.sec := rfl
@[simp] theorem State.answerRead_uv (w : PortWord) (k : Nat) : (s.answerRead w k).uv = s.uv := rfl
@[simp] theorem State.answerRead_ft (w : PortWord) (k : Nat) : (s.answerRead w k).ft = s.ft := rfl
@[simp] theorem State.answerRead_cause (w : PortWord) (k : Nat) : (s.answerRead w k).cause = s.cause := rfl
@[simp] theorem State.answerRead_cfg (w : PortWord) (k : Nat) : (s.answerRead w k).cfg = s.cfg := rfl
@[simp] theorem State.answerRead_hostQueue (w : PortWord) (k : Nat) : (s.answerRead w k).hostQueue = s.hostQueue := rfl
@[simp] theorem State.answerRead_envQueue (w : PortWord) (k : Nat) : (s.answerRead w k).envQueue = s.envQueue := rfl
@[simp] theorem State.answerRead_schedule (w : PortWord) (k : Nat) : (s.answerRead w k).schedule = s.schedule := rfl
@[simp] theorem State.answerRead_readOut (w : PortWord) (k : Nat) : (s.answerRead w k).readOut = some w := rfl
@[simp] theorem State.answerRead_draws (w : PortWord) (k : Nat) : (s.answerRead w k).draws = k := rfl

@[simp] theorem State.setInputs_fstate (h : List HostStep) (e : List EnvEvent) (t : List Agent) : (s.setInputs h e t).fstate = s.fstate := rfl
@[simp] theorem State.setInputs_frame (h : List HostStep) (e : List EnvEvent) (t : List Agent) : (s.setInputs h e t).frame = s.frame := rfl
@[simp] theorem State.setInputs_raw (h : List HostStep) (e : List EnvEvent) (t : List Agent) : (s.setInputs h e t).raw = s.raw := rfl
@[simp] theorem State.setInputs_rv (h : List HostStep) (e : List EnvEvent) (t : List Agent) : (s.setInputs h e t).rv = s.rv := rfl
@[simp] theorem State.setInputs_sraw (h : List HostStep) (e : List EnvEvent) (t : List Agent) : (s.setInputs h e t).sraw = s.sraw := rfl
@[simp] theorem State.setInputs_sval (h : List HostStep) (e : List EnvEvent) (t : List Agent) : (s.setInputs h e t).sval = s.sval := rfl
@[simp] theorem State.setInputs_sv (h : List HostStep) (e : List EnvEvent) (t : List Agent) : (s.setInputs h e t).sv = s.sv := rfl
@[simp] theorem State.setInputs_pri (h : List HostStep) (e : List EnvEvent) (t : List Agent) : (s.setInputs h e t).pri = s.pri := rfl
@[simp] theorem State.setInputs_pv (h : List HostStep) (e : List EnvEvent) (t : List Agent) : (s.setInputs h e t).pv = s.pv := rfl
@[simp] theorem State.setInputs_sec (h : List HostStep) (e : List EnvEvent) (t : List Agent) : (s.setInputs h e t).sec = s.sec := rfl
@[simp] theorem State.setInputs_uv (h : List HostStep) (e : List EnvEvent) (t : List Agent) : (s.setInputs h e t).uv = s.uv := rfl
@[simp] theorem State.setInputs_ft (h : List HostStep) (e : List EnvEvent) (t : List Agent) : (s.setInputs h e t).ft = s.ft := rfl
@[simp] theorem State.setInputs_cause (h : List HostStep) (e : List EnvEvent) (t : List Agent) : (s.setInputs h e t).cause = s.cause := rfl
@[simp] theorem State.setInputs_cfg (h : List HostStep) (e : List EnvEvent) (t : List Agent) : (s.setInputs h e t).cfg = s.cfg := rfl
@[simp] theorem State.setInputs_hostQueue (h : List HostStep) (e : List EnvEvent) (t : List Agent) : (s.setInputs h e t).hostQueue = h := rfl
@[simp] theorem State.setInputs_envQueue (h : List HostStep) (e : List EnvEvent) (t : List Agent) : (s.setInputs h e t).envQueue = e := rfl
@[simp] theorem State.setInputs_schedule (h : List HostStep) (e : List EnvEvent) (t : List Agent) : (s.setInputs h e t).schedule = t := rfl
@[simp] theorem State.setInputs_readOut (h : List HostStep) (e : List EnvEvent) (t : List Agent) : (s.setInputs h e t).readOut = s.readOut := rfl
@[simp] theorem State.setInputs_draws (h : List HostStep) (e : List EnvEvent) (t : List Agent) : (s.setInputs h e t).draws = s.draws := rfl

@[simp] theorem resetBlock_fstate : (resetBlock s).fstate = State.reset.fstate := rfl
@[simp] theorem resetBlock_frame : (resetBlock s).frame = State.reset.frame := rfl
@[simp] theorem resetBlock_raw : (resetBlock s).raw = State.reset.raw := rfl
@[simp] theorem resetBlock_rv : (resetBlock s).rv = State.reset.rv := rfl
@[simp] theorem resetBlock_sraw : (resetBlock s).sraw = State.reset.sraw := rfl
@[simp] theorem resetBlock_sval : (resetBlock s).sval = State.reset.sval := rfl
@[simp] theorem resetBlock_sv : (resetBlock s).sv = State.reset.sv := rfl
@[simp] theorem resetBlock_pri : (resetBlock s).pri = State.reset.pri := rfl
@[simp] theorem resetBlock_pv : (resetBlock s).pv = State.reset.pv := rfl
@[simp] theorem resetBlock_sec : (resetBlock s).sec = State.reset.sec := rfl
@[simp] theorem resetBlock_uv : (resetBlock s).uv = State.reset.uv := rfl
@[simp] theorem resetBlock_ft : (resetBlock s).ft = State.reset.ft := rfl
@[simp] theorem resetBlock_cause : (resetBlock s).cause = State.reset.cause := rfl
@[simp] theorem resetBlock_cfg : (resetBlock s).cfg = s.cfg := rfl
@[simp] theorem resetBlock_hostQueue : (resetBlock s).hostQueue = s.hostQueue := rfl
@[simp] theorem resetBlock_envQueue : (resetBlock s).envQueue = s.envQueue := rfl
@[simp] theorem resetBlock_schedule : (resetBlock s).schedule = s.schedule := rfl
@[simp] theorem resetBlock_readOut : (resetBlock s).readOut = s.readOut := rfl
@[simp] theorem resetBlock_draws : (resetBlock s).draws = s.draws := rfl

end Sys2Proof.Machine
end

