-- ==== Sys2Proof/Laws/Ops.lean ====
section
/-! SUPPORT. What each shared operation can do, said once. -/

namespace Sys2Proof.Machine

variable (s done : State)

/-- While a fault is latched nothing happens (R113). -/
theorem unlessHalted_of_ft {s : State} (h : s.ft = true) (done : State) : unlessHalted s done = s := by
  simp [unlessHalted, h]

/-- Otherwise the step has its effect. -/
theorem unlessHalted_of_not_ft {s : State} (h : s.ft = false) (done : State) : unlessHalted s done = done := by
  simp [unlessHalted, h]

theorem raiseFault_of_not_ft {s : State} (h : s.ft = false) (c : Cause) : raiseFault c s = s.latch c := by
  simp [raiseFault, h]

theorem raiseFault_of_ft {s : State} (h : s.ft = true) (c : Cause) : raiseFault c s = s := by
  simp [raiseFault, h]

/-- DEC and CONV do nothing, latch one of two causes, or have their effect (R38, R62, R113). -/
theorem needsFrame_cases :
    (s.ft = true ∧ needsFrame s done = s) ∨
    (s.ft = false ∧ s.fstate = .inFlight ∧ needsFrame s done = s.latch .frameInFlight) ∨
    (s.ft = false ∧ s.fstate = .empty ∧ needsFrame s done = s.latch .noOperand) ∨
    (s.ft = false ∧ s.fstate = .loaded ∧ needsFrame s done = done) := by
  cases hft : s.ft <;> cases hf : s.fstate <;> simp [needsFrame, unlessHalted, raiseFault, hft, hf]

/-- SXT, CAL and UCV do nothing, latch NO_OPERAND, or have their effect (R14, R113). -/
theorem needsValid_cases (valid : Bool) :
    (s.ft = true ∧ needsValid valid s done = s) ∨
    (s.ft = false ∧ valid = false ∧ needsValid valid s done = s.latch .noOperand) ∨
    (s.ft = false ∧ valid = true ∧ needsValid valid s done = done) := by
  cases hft : s.ft <;> cases valid <;> simp [needsValid, unlessHalted, raiseFault, hft]

/-- Taking a turn changes the inputs only. -/
theorem takeEvent_eq_setInputs : ∃ h e t, takeEvent s = s.setInputs h e t := by
  unfold takeEvent
  split
  · exact ⟨s.hostQueue, s.envQueue, s.schedule, rfl⟩
  all_goals exact ⟨_, _, _, rfl⟩

end Sys2Proof.Machine
end

