-- ==== Sys2Proof/Laws/PerInstr.lean ====
section
/-! SUPPORT. Statements made per instruction: the word of every command is a legal one (R47, R48). -/

namespace Sys2Proof.Laws

/-- The command word of `i` passes both checks of a legal word. -/
def LegalWord.Statement (i : Instr) : Prop := CommandWord.wellFormed (encode i) = true

theorem LegalWord.dec : LegalWord.Statement .dec := by unfold LegalWord.Statement; decide
theorem LegalWord.sxt : LegalWord.Statement .sxt := by unfold LegalWord.Statement; decide
theorem LegalWord.cal : LegalWord.Statement .cal := by unfold LegalWord.Statement; decide
theorem LegalWord.ucv : LegalWord.Statement .ucv := by unfold LegalWord.Statement; decide
theorem LegalWord.conv : LegalWord.Statement .conv := by unfold LegalWord.Statement; decide

end Sys2Proof.Laws
end

