-- ==== Sys2Proof/Laws/Run.lean ====
section
/-! SUPPORT. Small lemmas about runs: how a run grows by one step, and that the reachable states are
the states of runs. -/

namespace Sys2Proof.Machine

@[simp] theorem sinceLastTransfer_nil : sinceLastTransfer [] = none := rfl

@[simp] theorem sinceLastTransfer_snoc (es : List Event) (e : Event) :
    sinceLastTransfer (es ++ [e]) = transferAfter (sinceLastTransfer es) e := by
  simp [sinceLastTransfer]

/-- What is not an XFER_DONE comes after the last one. -/
theorem transferAfter_of_ne {e : Event} (h : ∀ bytes, e ≠ .xferDone bytes) (last : Option (List Byte × List Event)) :
    transferAfter last e = last.map (fun p => (p.1, p.2 ++ [e])) := by
  cases e <;> first | rfl | exact absurd rfl (h _)

@[simp] theorem over_nil : Fresh.over [] = Fresh.nothing := rfl

@[simp] theorem over_snoc (es : List Event) (e : Event) : Fresh.over (es ++ [e]) = (Fresh.over es).after e := by
  simp [Fresh.over]

/-- The induction over the steps of a run: what holds at power-on and is kept by a step of a run holds
at its every state. -/
theorem run_induction {c : Config} {P : List Event → State → Prop}
    (start : ∀ host env turns, c.admitted = true → P [] (State.start c host env turns))
    (next : ∀ es s t, Run c es s → P es s → step s = .next t → P (es ++ [nextEvent s]) t)
    {es : List Event} {t : State} (h : Run c es t) : P es t := by
  obtain ⟨hc, host, env, turns, hs⟩ := h
  induction hs with
  | none => exact start host env turns hc
  | snoc es s t hs ht ih => exact next es s t ⟨hc, host, env, turns, hs⟩ ih ht

theorem run_reachable {c : Config} {es : List Event} {t : State} (h : Run c es t) : Reachable t :=
  run_induction (P := fun _ t => Reachable t) (fun host env turns hc => .start c host env turns hc)
    (fun _ s t _ hs ht => .step s t hs ht) h

theorem reachable_run {t : State} (h : Reachable t) : ∃ c es, Run c es t := by
  induction h with
  | start c host env turns hc => exact ⟨c, [], hc, host, env, turns, .none⟩
  | step s t _ ht ih =>
    obtain ⟨c, es, hc, host, env, turns, hs⟩ := ih
    exact ⟨c, _, hc, host, env, turns, .snoc es s t hs ht⟩

end Sys2Proof.Machine
end

