-- ==== Sys2Proof/Laws/Step.lean ====
section
/-! SUPPORT. Everything a step can do, said once: the inversion lemma the proofs about steps cite. -/

namespace Sys2Proof.Machine

/-- What DEC and CONV raise in each transfer state (R38). -/
def frameFault : FState → Option Cause
  | .empty => some .noOperand
  | .inFlight => some .frameInFlight
  | .loaded => none

/-- The fault a command raises in a state with none latched (R38, R14, R114(3)). -/
def operandFault (s : State) : Instr → Option Cause
  | .dec => frameFault s.fstate
  | .sxt => if s.rv then none else some .noOperand
  | .cal => if s.sv then none else some .noOperand
  | .ucv => if s.pv then none else some .noOperand
  | .conv => frameFault s.fstate

/-- The fault an event raises in a state with none latched (R111, R114). -/
def eventFault (s : State) : Event → Option Cause
  | .idle => none
  | .reset => none
  | .read _ => none
  | .command w =>
    match decodeWord w with
    | .ok i => operandFault s i
    | .error _ => some .illegalCommand
  | .xferStart => if s.fstate = .inFlight then some .protocol else none
  | .xferDone bytes =>
    if s.fstate ≠ .inFlight then some .protocol
    else if bytes.length = 8 then none else some .frameLength

/-- `Effect e s t`: performing `e` in `s` can leave `t`. -/
inductive Effect : Event → State → State → Prop where
  | idle (s) : Effect .idle s s
  | reset (s) : Effect .reset s (resetBlock s)
  | read (s index w k) : Effect (.read index) s (s.answerRead w k)
  | halted (e s) (h : s.ft = true) (hr : e ≠ .reset) : Effect e s s
  | faulted (e s c) (h : s.ft = false) (hc : eventFault s e = some c) : Effect e s (s.latch c)
  | started (s) (h : s.ft = false) (hf : s.fstate ≠ .inFlight) : Effect .xferStart s (s.setTransfer .inFlight)
  | completed (s bytes) (h : s.ft = false) (hf : s.fstate = .inFlight) (hb : bytes.length = 8) :
      Effect (.xferDone bytes) s ((s.setFrame (s.frame.writeFrame bytes)).setTransfer .loaded)
  | dec (s w) (hw : decodeWord w = .ok .dec) (h : s.ft = false) (hf : s.fstate = .loaded) :
      Effect (.command w) s (s.setRaw (rawWord (decodeFrame s.frame)))
  | sxt (s w) (hw : decodeWord w = .ok .sxt) (h : s.ft = false) (hv : s.rv = true) :
      Effect (.command w) s (s.setSigned (sextCode (codeOf s.raw)) (svalOf s.cfg.fmt (codeOf s.raw)))
  | cal (s w) (hw : decodeWord w = .ok .cal) (h : s.ft = false) (hv : s.sv = true) :
      Effect (.command w) s (s.setPrimary (cal s.cfg s.sval))
  | ucv (s w) (hw : decodeWord w = .ok .ucv) (h : s.ft = false) (hv : s.pv = true) :
      Effect (.command w) s (s.setSecondary (ucv s.cfg s.pri))
  | conv (s w) (hw : decodeWord w = .ok .conv) (h : s.ft = false) (hf : s.fstate = .loaded) :
      Effect (.command w) s (s.setResults (decodeFrame s.frame))

theorem needsFrame_effect {e : Event} {s done t : State} (he : e ≠ .reset)
    (hc : eventFault s e = frameFault s.fstate)
    (hd : s.ft = false → s.fstate = .loaded → Effect e s done) (ht : needsFrame s done = t) : Effect e s t := by
  rcases needsFrame_cases s done with ⟨h, heq⟩ | ⟨h, hf, heq⟩ | ⟨h, hf, heq⟩ | ⟨h, hf, heq⟩ <;> rw [← ht, heq]
  · exact .halted e s h he
  · exact .faulted e s _ h (by rw [hc, hf]; rfl)
  · exact .faulted e s _ h (by rw [hc, hf]; rfl)
  · exact hd h hf

theorem needsValid_effect {e : Event} {valid : Bool} {s done t : State} (he : e ≠ .reset)
    (hc : eventFault s e = if valid then none else some .noOperand)
    (hd : s.ft = false → valid = true → Effect e s done) (ht : needsValid valid s done = t) : Effect e s t := by
  rcases needsValid_cases s done valid with ⟨h, heq⟩ | ⟨h, hv, heq⟩ | ⟨h, hv, heq⟩ <;> rw [← ht, heq]
  · exact .halted e s h he
  · exact .faulted e s _ h (by rw [hc, hv]; rfl)
  · exact hd h hv

theorem eventFault_command {w : Byte} {i : Instr} (hw : decodeWord w = .ok i) (s : State) :
    eventFault s (.command w) = operandFault s i := by
  simp [eventFault, hw]

theorem exec_effect {w : Byte} {i : Instr} (hw : decodeWord w = .ok i) {s t : State} (h : exec i s = .next t) :
    Effect (.command w) s t := by
  have hc := eventFault_command hw s
  cases i <;> simp only [exec, execDec, execSxt, execCal, execUcv, execConv, Host.Outcome.next.injEq] at h
  · exact needsFrame_effect (by simp) hc (fun hft hf => .dec s w hw hft hf) h
  · exact needsValid_effect (by simp) hc (fun hft hv => .sxt s w hw hft hv) h
  · exact needsValid_effect (by simp) hc (fun hft hv => .cal s w hw hft hv) h
  · exact needsValid_effect (by simp) hc (fun hft hv => .ucv s w hw hft hv) h
  · exact needsFrame_effect (by simp) hc (fun hft hf => .conv s w hw hft hf) h

/-- A fault, or nothing while one is latched. -/
theorem raise_effect {e : Event} {c : Cause} {s t : State} (he : e ≠ .reset) (hc : eventFault s e = some c)
    (h : unlessHalted s (raiseFault c s) = t) : Effect e s t := by
  subst h
  cases hft : s.ft
  · rw [unlessHalted_of_not_ft hft, raiseFault_of_not_ft hft]
    exact .faulted e s c hft hc
  · rw [unlessHalted_of_ft hft]
    exact .halted e s hft he

/-- An effect of its own, or nothing while a fault is latched. -/
theorem unlessHalted_effect {e : Event} {s done t : State} (he : e ≠ .reset)
    (hd : s.ft = false → Effect e s done) (h : unlessHalted s done = t) : Effect e s t := by
  subst h
  cases hft : s.ft
  · rw [unlessHalted_of_not_ft hft]; exact hd hft
  · rw [unlessHalted_of_ft hft]; exact .halted e s hft he

/-- The inversion lemma: what performing an event can leave. -/
theorem perform_effect {e : Event} {s t : State} (h : perform e s = .next t) : Effect e s t := by
  cases e with
  | idle => simp only [perform, Host.Outcome.next.injEq] at h; exact h ▸ .idle s
  | reset => simp only [perform, Host.Outcome.next.injEq] at h; exact h ▸ .reset s
  | command w =>
    simp only [perform, runCommand] at h
    split at h
    · rename_i hw; exact exec_effect hw h
    · rename_i hw; exact raise_effect (by simp) (by simp [eventFault, hw]) (Host.Outcome.next.inj h)
  | read index =>
    simp only [perform, readPort, Host.Outcome.next.injEq] at h
    split at h <;> exact h ▸ .read s index _ _
  | xferStart =>
    simp only [perform, xferStart, Host.Outcome.next.injEq] at h
    cases hf : s.fstate <;> rw [hf] at h <;> simp only at h
    · exact unlessHalted_effect (by simp) (fun hft => .started s hft (by simp [hf])) h
    · exact raise_effect (by simp) (by simp [eventFault, hf]) h
    · exact unlessHalted_effect (by simp) (fun hft => .started s hft (by simp [hf])) h
  | xferDone bytes =>
    simp only [perform, xferDone, Host.Outcome.next.injEq] at h
    cases hf : s.fstate <;> rw [hf] at h <;> simp only at h
    · exact raise_effect (by simp) (by simp [eventFault, hf]) h
    · by_cases hb : bytes.length = frameLen
      · rw [if_pos hb] at h
        exact unlessHalted_effect (by simp) (fun hft => .completed s bytes hft hf hb) h
      · rw [if_neg hb] at h
        exact raise_effect (by simp) (by simpa [eventFault, hf, frameLen] using hb) h
    · exact raise_effect (by simp) (by simp [eventFault, hf]) h

theorem operandFault_ne_none {s : State} {i : Instr} {c : Cause} (h : operandFault s i = some c) : c ≠ .none := by
  rintro rfl
  cases i <;> simp only [operandFault, frameFault] at h <;> split at h <;> simp at h

/-- No event raises the cause NONE, and reset, a read or a turn with nothing in it raises none (R111). -/
theorem eventFault_ne_none {s : State} {e : Event} {c : Cause} (h : eventFault s e = some c) :
    c ≠ .none ∧ e ≠ .reset ∧ e ≠ .idle ∧ ∀ index, e ≠ .read index := by
  cases e <;> simp [eventFault] at h
  case command w =>
    refine ⟨?_, by simp, by simp, by simp⟩
    split at h
    · exact operandFault_ne_none h
    · simp at h; simp [← h]
  case xferStart => simp [← h.2]
  case xferDone bytes =>
    refine ⟨?_, by simp, by simp, by simp⟩
    repeat' (split at h)
    all_goals simp at h
    all_goals simp [← h]

/-- With an admitted configuration a step performs the event that arrives. -/
theorem step_of_admitted {s : State} (h : s.cfg.admitted = true) : step s = perform (nextEvent s) (takeEvent s) := by
  simp [step, turn, h]

/-- What a step that answers a next state did. -/
theorem step_effect {s t : State} (h : step s = .next t) :
    s.cfg.admitted = true ∧ Effect (nextEvent s) (takeEvent s) t := by
  unfold step turn at h
  split at h
  · rename_i ha
    exact ⟨ha, perform_effect h⟩
  · cases h

end Sys2Proof.Machine
end

