-- ==== Sys2Proof/Tests/Slice0.lean ====
section
/-! SUPPORT. Tests against spec/95_test_vectors.md, smoke tests of the well-formedness checks, and for
every statement with hypotheses a witness that they can be met. Expected values come from spec/. -/

namespace Sys2Proof.Tests

open Sys2Proof.Machine

/-! ### Small states -/

/-- The configurations B, C, D and E of spec/95_test_vectors.md. -/
def cfgB : Config :=
  { Config.exampleA with raw1 := 0x47C35000#64, raw2 := 0x4A371B00#64, p2 := 0x447A0000#64 }
def cfgC : Config :=
  { Config.exampleA with raw1 := 0xC59C4000#64, p1 := 0x41480000#64, raw2 := 0x49F42400#64, p2 := 0xC0E80000#64 }
def cfgD : Config := { Config.exampleA with raw2 := 0x3F800000#64, p2 := 0x7F61B1E6#64 }
def cfgE : Config :=
  { Config.exampleA with p1 := 0x80000000#64, raw2 := 0x3F800000#64, p2 := 0xBF800000#64 }

/-- Configuration A in binary64: 0.0, 0.0, 1048576.0, 256.0 (R89). -/
def cfgWide : Config :=
  { Config.exampleA with fmt := .binary64, raw2 := 0x4130000000000000#64, p2 := 0x4070000000000000#64,
                         kUnit := 0x3FB91AE2DA554B8C#64 }

/-- A configuration whose two pressures are equal, 12.5. -/
def cfgLevel : Config := { cfgC with p2 := 0x41480000#64 }

/-- The same with the raw values exchanged, so that RAW_2 < RAW_1. -/
def cfgLevelDown : Config := { cfgLevel with raw1 := cfgLevel.raw2, raw2 := cfgLevel.raw1 }

/-- Configuration A with both pressures zero, of opposite signs: P_1 negative or not. -/
def cfgZeros (neg : Bool) : Config :=
  { Config.exampleA with p1 := fpZero .binary32 neg, p2 := fpZero .binary32 (!neg) }

/-- The frame of L2.2 that decodes to 0x123456. -/
def frame123456 : List Byte := [0x00#8, 0x02#8, 0x08#8, 0x0A#8, 0x20#8, 0x22#8, 0x28#8, 0x00#8]

/-- The same with every ignored bit set. -/
def frame123456Noisy : List Byte := [0xFF#8, 0x57#8, 0x5D#8, 0x5F#8, 0x75#8, 0x77#8, 0x7D#8, 0xFF#8]

/-- The idle preload pattern (L1.8). -/
def frameIdle : List Byte := [0x00#8, 0xAA#8, 0xAA#8, 0xAA#8, 0xAA#8, 0xAA#8, 0xAA#8, 0x80#8]

def loaded (c : Config) (bytes : List Byte) : State :=
  { State.reset with cfg := c, fstate := .loaded, frame := Memory.writeFrame [] bytes }

def inFlight : State := { State.reset with fstate := .inFlight }

def halted : State := { inFlight with ft := true, cause := .frameInFlight }

def withRaw (raw : Word32) : State := { State.reset with raw := raw, rv := true }

def withValue (c : Config) (v : FpWord) : State := { State.reset with cfg := c, sval := v, sv := true }

def withPressure (c : Config) (p : FpWord) : State := { State.reset with cfg := c, pri := p, pv := true }

/-- A run has begun with these inputs. -/
def started (s : State) (host : List HostStep) (env : List EnvEvent) (turns : List Agent) : State :=
  { s with hostQueue := host, envQueue := env, schedule := turns }

/-- The outcome is a next state with a property. -/
def nextIs (o : Host.Outcome State Fault Refusal) (p : State → Bool) : Bool :=
  match o with
  | .next t => p t
  | .fault _ => false
  | .refused _ => false

/-! ### Well-formedness smoke tests: each check refuses an ill-formed term -/

theorem test_reserved_field_refused : CommandWord.rsvIsZero 0x11#8 = false ∧ CommandWord.wellFormed 0x11#8 = false := by
  decide

theorem test_unassigned_operation_refused :
    CommandWord.opIsAssigned 0x00#8 = false ∧ CommandWord.opIsAssigned 0x06#8 = false ∧
    CommandWord.wellFormed 0x0F#8 = false ∧ CommandWord.wellFormed 0x05#8 = true := by
  decide

theorem test_infinite_point_refused :
    Config.pointsAreFinite { Config.exampleA with p2 := 0x7F800000#64 } = false ∧
    Config.pointsAreFinite { Config.exampleA with raw1 := 0x7FC00000#64 } = false ∧
    Config.pointsAreFinite { Config.exampleA with p1 := 0x100000000#64 } = false := by
  decide +kernel

/-- L2.4: RAW_1 = RAW_2 = 5.0, and RAW_1 = +0.0 with RAW_2 = -0.0. -/
theorem test_equal_raw_points_refused :
    Config.rawsDiffer { Config.exampleA with raw1 := 0x40A00000#64, raw2 := 0x40A00000#64 } = false ∧
    Config.rawsDiffer { Config.exampleA with raw1 := 0x00000000#64, raw2 := 0x80000000#64 } = false := by
  decide +kernel

/-- L2.4: P_1 = -3.0e38 and P_2 = 3.0e38 with RAW_1 = 0 and RAW_2 = 1. -/
theorem test_infinite_slope_refused :
    Config.slopeIsFinite { cfgD with p1 := 0xFF61B1E6#64 } = false ∧
    Config.admitted { cfgD with p1 := 0xFF61B1E6#64 } = false := by
  decide +kernel

theorem test_mode_count_refused :
    Config.oneMode { Config.exampleA with modesSelected := 0 } = false ∧
    Config.oneMode { Config.exampleA with modesSelected := 2 } = false := by
  decide

theorem test_wrong_unit_factor_refused :
    Config.unitFactorIsRight { Config.exampleA with kUnit := 0x3DC8D718#64 } = false ∧
    Config.unitFactorIsRight { cfgWide with kUnit := 0x3DC8D717#64 } = false := by
  decide

theorem test_example_configurations_admitted :
    Config.exampleA.admitted = true ∧ cfgB.admitted = true ∧ cfgC.admitted = true ∧ cfgD.admitted = true ∧
    cfgE.admitted = true ∧ cfgWide.admitted = true := by
  decide +kernel

theorem test_memory_form_refused :
    Memory.wf [(2, 1#8), (1, 1#8)] = false ∧ Memory.wf [(1, 1#8), (1, 2#8)] = false ∧
    Memory.wf [(3, 0#8)] = false ∧ Memory.wf [(8, 1#8)] = false ∧ Memory.wf [(0, 1#8), (7, 2#8)] = true := by
  decide

/-! ### Decoding -/

/-- The words of R47, `RSV` then `OP`, written out bit by bit from the opcode map of R48. -/
theorem test_decode_words :
    decodeWord 0b00000001#8 = .ok .dec ∧ decodeWord 0b00000010#8 = .ok .sxt ∧
    decodeWord 0b00000011#8 = .ok .cal ∧ decodeWord 0b00000100#8 = .ok .ucv ∧
    decodeWord 0b00000101#8 = .ok .conv := by
  decide

/-- L2.7: the illegal words, and why each is. -/
theorem test_illegal_words :
    decodeWord 0x00#8 = .error .unassignedOperation ∧ decodeWord 0x06#8 = .error .unassignedOperation ∧
    decodeWord 0x0F#8 = .error .unassignedOperation ∧ decodeWord 0x11#8 = .error .reservedBitsSet ∧
    decodeWord 0x81#8 = .error .reservedBitsSet ∧ decodeWord 0xF5#8 = .error .reservedBitsSet ∧
    decodeWord 0xFF#8 = .error .reservedBitsSet := by
  decide

theorem test_table_words :
    decodeTableWord 8 1 = some .dec ∧ decodeTableWord 8 5 = some .conv ∧ decodeTableWord 8 0x11 = none ∧
    decodeTableWord 16 1 = none := by
  decide

/-- The host's two questions, for the third command. -/
theorem test_step_runs_the_placed_word :
    step (State.reset.withFetchWord 8 3) = exec .cal State.reset := by
  rfl

/-! ### The commands -/

/-- L2.1. -/
theorem test_nibbles :
    nib 0x02#8 = 1#4 ∧ nib 0x08#8 = 2#4 ∧ nib 0x20#8 = 4#4 ∧ nib 0x0A#8 = 3#4 ∧ nib 0xA0#8 = 0xC#4 ∧
    nib 0x82#8 = 9#4 ∧ nib 0xFF#8 = 0xF#4 := by
  decide

/-- L2.2, nibble order. -/
theorem test_dec_nibble_order :
    nextIs (exec .dec (loaded Config.exampleA frame123456)) (fun t => t.raw = 0x00123456#32 && t.rv) = true := by
  decide

/-- L2.2, ignored bits set and bytes 0 and 7 not 0. -/
theorem test_dec_mixed_frame :
    nextIs (exec .dec (loaded Config.exampleA [0x3C#8, 0xA2#8, 0xA8#8, 0xAA#8, 0x88#8, 0xA2#8, 0xA8#8, 0x81#8]))
      (fun t => t.raw = 0x00DEFADE#32) = true := by
  decide

/-- L1.5, L2.3: the most negative code. -/
theorem test_sxt_most_negative :
    nextIs (exec .sxt (withRaw 0x00800000#32)) (fun t => t.sraw = 0xFF800000#32 && t.sval = 0xCB000000#64 && t.sv) = true := by
  decide +kernel

/-- L1.4, L2.3: the largest code, and in binary64 the value -1.0 of 0xFFFFFF. -/
theorem test_sxt_values :
    nextIs (exec .sxt (withRaw 0x007FFFFF#32)) (fun t => t.sraw = 0x007FFFFF#32 && t.sval = 0x4AFFFFFE#64) = true ∧
    nextIs (exec .sxt { withRaw 0x00FFFFFF#32 with cfg := cfgWide }) (fun t => t.sval = 0xBFF0000000000000#64) = true := by
  decide +kernel

/-- L2.4, configuration C at RAW_2: one rounding an operator. Configuration D: overflow to +inf. -/
theorem test_cal_rounds_each_operator :
    nextIs (exec .cal (withValue cfgC 0x49F42400#64)) (fun t => t.pri = 0xC0E80000#64 && t.pv) = true ∧
    nextIs (exec .cal (withValue cfgD 0x40000000#64)) (fun t => t.pri = 0x7F800000#64) = true := by
  decide +kernel

/-- L2.4, the same with CAL_FUSED. Configuration E: -0. -/
theorem test_cal_fused :
    nextIs (exec .cal (withValue { cfgC with calFused := true } 0x49F42400#64)) (fun t => t.pri = 0xC0E80001#64) = true ∧
    nextIs (exec .cal (withValue { cfgE with calFused := true } 0x00000000#64)) (fun t => t.pri = 0x80000000#64) = true := by
  decide +kernel

/-- L1.7, L2.5: 1.0 gives K_UNIT, and an inexact product. -/
theorem test_ucv_values :
    nextIs (exec .ucv (withPressure Config.exampleA 0x3F800000#64)) (fun t => t.sec = 0x3DC8D717#64 && t.uv) = true ∧
    nextIs (exec .ucv (withPressure Config.exampleA 0x44FFFFFE#64)) (fun t => t.sec = 0x4348D715#64) = true := by
  decide +kernel

/-- L2.5: -inf, and a NO_OPERAND. -/
theorem test_ucv_infinity_and_no_operand :
    nextIs (exec .ucv (withPressure Config.exampleA 0xFF800000#64)) (fun t => t.sec = 0xFF800000#64) = true ∧
    nextIs (exec .ucv State.reset) (fun t => t.cause = .noOperand && !t.uv) = true := by
  decide +kernel

/-- L2.6, the first row. -/
theorem test_conv_results :
    nextIs (exec .conv (loaded Config.exampleA frame123456)) (fun t =>
      t.raw = 0x00123456#32 && t.sraw = 0x00123456#32 && t.sval = 0x4991A2B0#64 && t.pri = 0x4391A2B0#64 &&
      t.sec = 0x41E482EC#64 && status t = 0x3D#32) = true := by
  decide +kernel

/-- L1.8: the idle pattern decodes to -1, configuration B. -/
theorem test_conv_idle_pattern :
    nextIs (exec .conv (loaded cfgB frameIdle)) (fun t =>
      t.raw = 0x00FFFFFF#32 && t.sval = 0xBF800000#64 && t.pri = 0xC209EEB3#64 && t.sec = 0xC0586CBF#64) = true := by
  decide +kernel

/-! ### Events, faults and the read port -/

/-- L2.8. -/
theorem test_xfer_done_lengths :
    nextIs (perform (.xferDone frame123456) inFlight) (fun t => t.fstate = .loaded && t.frame.read 3 = 0x0A#8) = true ∧
    nextIs (perform (.xferDone (frame123456.take 7)) inFlight)
      (fun t => t.cause = .frameLength && t.fstate = .inFlight) = true ∧
    nextIs (perform (.xferDone (frame123456.take 7)) (loaded Config.exampleA frame123456)) (fun t => t.cause = .protocol) = true := by
  decide

/-- L2.8, L1.9. -/
theorem test_xfer_start_twice :
    nextIs (perform .xferStart State.reset) (fun t => t.fstate = .inFlight) = true ∧
    nextIs (perform .xferStart inFlight) (fun t => t.ft && t.cause = .protocol) = true := by
  decide

/-- Program P3, steps 3 to 8. -/
theorem test_fault_halts_until_reset :
    nextIs (exec .dec inFlight) (fun t => t = halted) = true ∧
    nextIs (perform (.xferDone frame123456) halted) (fun t => t = halted) = true ∧
    nextIs (perform (.read 5) halted) (fun t => t.readOut = some 0x42#64) = true ∧
    nextIs (perform (.read 6) halted) (fun t => t.readOut = some 0x02#64) = true ∧
    nextIs (perform .reset halted) (fun t => status t = 0#32 && faultWord t = 0#32) = true := by
  decide

/-- L2.9: in flight with all results valid, as in program P2, step 5. -/
theorem test_status_of_stale_results :
    status { inFlight with rv := true, sv := true, pv := true, uv := true } = 0x3E#32 := by
  decide

/-- R114(2): an illegal word after reset is ILLEGAL_COMMAND (L2.7). -/
theorem test_illegal_before_operand :
    nextIs (perform (.command 0x00#8) State.reset) (fun t => faultWord t = 3#32) = true := by
  decide

/-! ### Witnesses: for each statement with hypotheses, data that meets them, one for each clause -/

/-- The next turn is the host's, with one step waiting. -/
def hostTurn (s : State) (h : HostStep) : State := started s [h] [] [.host]

/-- The next turn is the environment's, with one event waiting. -/
def envTurn (s : State) (e : EnvEvent) : State := started s [] [e] [.environment]

/-- Configuration A, the frame of L2.2 loaded and converted. -/
def converted : State := (loaded Config.exampleA frame123456).setResults 0x123456#24

theorem witness_DecodeEncodeRoundTrip : decodeWord 0x01#8 = .ok .dec ∧ decodeWord 0x05#8 = .ok .conv := by
  decide

theorem witness_IllegalWordsFault :
    State.reset.ft = false ∧ (BitVec.extractLsb' 0 4 0x00#8).toNat = 0 ∧ 6 ≤ (BitVec.extractLsb' 0 4 0x06#8).toNat ∧
    6 ≤ (BitVec.extractLsb' 0 4 0x0F#8).toNat ∧ BitVec.extractLsb' 4 4 0x11#8 ≠ 0#4 ∧
    BitVec.extractLsb' 4 4 0xF5#8 ≠ 0#4 := by
  decide

theorem witness_StepRunsDecodedCommand :
    State.reset.cfg.admitted = true ∧ (hostTurn State.reset (.command 0x05#8)).schedule = [.host] ∧
    (hostTurn State.reset (.command 0x05#8)).hostQueue = [.command 0x05#8] ∧ decodeWord 0x05#8 = .ok .conv ∧
    (hostTurn State.reset (.command 0x06#8)).hostQueue = [.command 0x06#8] ∧
    decodeWord 0x06#8 = .error .unassignedOperation := by
  decide +kernel

theorem witness_StepPerformsTheTurn :
    State.reset.cfg.admitted = true ∧ State.reset.schedule = [] ∧
    (started State.reset [] [] [.reset]).schedule = [.reset] ∧
    (hostTurn State.reset (.read 9)).hostQueue = [.read 9] ∧
    (envTurn State.reset .xferStart).envQueue = [.xferStart] ∧
    (envTurn State.reset (.xferDone frameIdle)).envQueue = [.xferDone frameIdle] ∧
    (started State.reset [] [] [.host]).schedule = [.host] ∧ (started State.reset [] [] [.host]).hostQueue = [] ∧
    (started State.reset [] [] [.environment]).envQueue = [] := by
  decide +kernel

theorem witness_EachAgentsOrderIsKept :
    (∃ t, step (hostTurn State.reset (.read 5)) = .next t) ∧ ∃ t, step (envTurn State.reset .xferStart) = .next t :=
  ⟨⟨_, rfl⟩, ⟨_, rfl⟩⟩

theorem witness_OnlyAdmittedConfigurationsRun :
    State.reset.cfg.admitted = true ∧
    (withValue { cfgD with p1 := 0xFF61B1E6#64 } 0#64).cfg.admitted = false := by
  decide +kernel

theorem witness_ConfigurationNeverChanges : ∃ t, step (started State.reset [] [] [.reset]) = .next t :=
  ⟨_, rfl⟩

theorem witness_CommandsWriteOnlyTheirStage : ∀ i : Instr, ∃ t, exec i converted = .next t :=
  fun i => by cases i <;> exact ⟨_, rfl⟩

theorem witness_DecGathersTheSampleBits :
    halted.ft = true ∧ inFlight.ft = false ∧ inFlight.fstate = .inFlight ∧
    State.reset.ft = false ∧ State.reset.fstate = .empty ∧
    (loaded Config.exampleA frameIdle).ft = false ∧ (loaded Config.exampleA frameIdle).fstate = .loaded ∧
    1 ≤ (1 : Fin 8).val ∧ (6 : Fin 8).val ≤ 6 ∧ 0 < 4 ∧ 3 < 4 ∧ 24 ≤ 24 := by
  decide

theorem sampleBitsAgree_noisy :
    sampleBitsAgree (Memory.writeFrame [] frame123456) (Memory.writeFrame [] frame123456Noisy) := by
  intro i k h1 h6 hk
  revert h1 h6
  interval_cases k <;> revert i <;> decide

theorem witness_DecodeDependsOnSampleBitsOnly :
    sampleBitsAgree (Memory.writeFrame [] frame123456) (Memory.writeFrame [] frame123456Noisy) ∧
    Memory.wf [(0, 0xFF#8), (7, 0xFF#8)] = true :=
  ⟨sampleBitsAgree_noisy, by decide⟩

theorem witness_CanonicalFrameRoundTrip :
    inFlight.ft = false ∧ inFlight.fstate = .inFlight ∧ Memory.wf inFlight.frame = true := by
  decide

theorem witness_UnreadableFrameFaults :
    inFlight.ft = false ∧ inFlight.fstate = .inFlight ∧ State.reset.ft = false ∧ State.reset.fstate = .empty := by
  decide

theorem witness_SignExtensionOfTheCode :
    BitVec.getLsbD 0x800000#24 23 = true ∧ BitVec.getLsbD 0x7FFFFF#24 23 = false := by
  decide

theorem witness_SignedValueIsABijection :
    sint 0x800000#24 = sint 0x800000#24 ∧ sint 0x800000#24 = -8388608 ∧ sint 0x7FFFFF#24 = 8388607 := by
  decide

theorem witness_SmallIntegersConvertExactly :
    ((2 : Int) ^ 24).natAbs ≤ 2 ^ 24 ∧ (-(2 : Int) ^ 24).natAbs ≤ 2 ^ 24 ∧ (0 : Int).natAbs ≤ 2 ^ 24 := by
  decide

theorem witness_SxtConvertsExactly :
    halted.ft = true ∧ State.reset.ft = false ∧ State.reset.rv = false ∧
    (withRaw 0x00800000#32).ft = false ∧ (withRaw 0x00800000#32).rv = true := by
  decide

/-- A positive, a negative and no value, a tie (`2^24 + 1` units), the overflow threshold in both directions, and the largest finite pattern. -/
theorem witness_RoundsToNearestTiesToEven :
    0 < 1 ∧ (3 : Int) ≠ 0 ∧ (-3 : Int) ≠ 0 ∧ (0 : Int) = 0 ∧ roundMagnitude .binary32 (2 ^ 24 + 1) 1 < Format.infMagnitude .binary32 ∧
    ((magnitudeUnits .binary32 (roundMagnitude .binary32 (2 ^ 24 + 1) 1) * 1 : Int) - (2 ^ 24 + 1 : Nat)).natAbs =
      ((magnitudeUnits .binary32 (roundMagnitude .binary32 (2 ^ 24 + 1) 1 + 1) * 1 : Int) - (2 ^ 24 + 1 : Nat)).natAbs ∧
    Format.infMagnitude .binary32 - 1 < Format.infMagnitude .binary32 ∧
    roundMagnitude .binary32 (2 ^ 277) 1 = Format.infMagnitude .binary32 ∧
    roundMagnitude .binary32 (2 ^ 277 - 2 ^ 252 - 1) 1 = Format.infMagnitude .binary32 - 1 := by
  decide +kernel

theorem witness_RepresentableValuesAreExact :
    0 < Format.infMagnitude .binary32 ∧ Format.infMagnitude .binary64 - 1 < Format.infMagnitude .binary64 ∧ 0 < 3 := by
  decide

theorem witness_OperationsRoundTheExactResult :
    isFinite .binary32 0x3F800000#64 = true ∧ isFinite .binary32 0xBF800000#64 = true ∧
    isFinite .binary32 0xFF7FFFFF#64 = true ∧ isFinite .binary32 0x80000000#64 = true ∧
    0 < fpUnits .binary32 0x00000001#64 ∧ isFinite .binary32 0x00000001#64 = true ∧
    fpUnits .binary32 0xBF800000#64 < 0 ∧ fpUnits .binary32 0xFF7FFFFF#64 ≠ 0 ∧
    fpUnits .binary32 0x3F800000#64 ≠ 0 := by
  decide +kernel

theorem witness_SignedZerosFollowIeee :
    isFinite .binary32 0x80000000#64 = true ∧ isFinite .binary64 0x7FEFFFFFFFFFFFFF#64 = true := by
  decide +kernel

theorem witness_CalAppliesTheLine :
    halted.ft = true ∧ State.reset.ft = false ∧ State.reset.sv = false ∧
    (withValue cfgC 0#64).ft = false ∧ (withValue cfgC 0#64).sv = true := by
  decide

/-- P_1 not 0 (configuration C), and P_1 = -0 (configuration E) with `x` the +0 of SVAL. -/
theorem witness_FirstCalibrationPointIsExact :
    cfgC.admitted = true ∧ isPattern cfgC.fmt 0xC59C4000#64 = true ∧ isFinite cfgC.fmt 0xC59C4000#64 = true ∧
    0xC59C4000#64 ≠ fpZero cfgC.fmt true ∧ fpUnits cfgC.fmt 0xC59C4000#64 = fpUnits cfgC.fmt cfgC.raw1 ∧
    fpUnits cfgC.fmt cfgC.p1 ≠ 0 ∧
    cfgE.admitted = true ∧ isPattern cfgE.fmt 0#64 = true ∧ isFinite cfgE.fmt 0#64 = true ∧
    0#64 ≠ fpZero cfgE.fmt true ∧ fpUnits cfgE.fmt 0#64 = fpUnits cfgE.fmt cfgE.raw1 ∧ fpUnits cfgE.fmt cfgE.p1 = 0 := by
  decide +kernel

/-- The two pressures as one pattern with RAW_1 < RAW_2 and with RAW_2 < RAW_1, P_1 = -0 with P_2 = +0,
and P_1 = +0 with P_2 = -0. -/
theorem witness_EqualPressuresGiveThatPressure :
    cfgLevel.admitted = true ∧ fpUnits cfgLevel.fmt cfgLevel.p1 = fpUnits cfgLevel.fmt cfgLevel.p2 ∧
    ¬(cfgLevel.p1 = fpZero cfgLevel.fmt false ∧ cfgLevel.p2 = fpZero cfgLevel.fmt true) ∧
    cfgLevelDown.admitted = true ∧ fpUnits cfgLevelDown.fmt cfgLevelDown.p1 = fpUnits cfgLevelDown.fmt cfgLevelDown.p2 ∧
    ¬(cfgLevelDown.p1 = fpZero cfgLevelDown.fmt false ∧ cfgLevelDown.p2 = fpZero cfgLevelDown.fmt true) ∧
    (cfgZeros true).admitted = true ∧ fpUnits (cfgZeros true).fmt (cfgZeros true).p1 = fpUnits (cfgZeros true).fmt (cfgZeros true).p2 ∧
    ¬((cfgZeros true).p1 = fpZero (cfgZeros true).fmt false ∧ (cfgZeros true).p2 = fpZero (cfgZeros true).fmt true) ∧
    (cfgZeros false).admitted = true ∧ fpUnits (cfgZeros false).fmt (cfgZeros false).p1 = fpUnits (cfgZeros false).fmt (cfgZeros false).p2 ∧
    (cfgZeros false).p1 = fpZero (cfgZeros false).fmt false ∧ (cfgZeros false).p2 = fpZero (cfgZeros false).fmt true := by
  decide +kernel

/-- R83: SLOPE is -0 when P_1 = P_2 and RAW_2 < RAW_1, and +0 when RAW_1 < RAW_2. -/
theorem test_slope_of_equal_pressures : slope cfgLevelDown = 0x80000000#64 ∧ slope cfgLevel = 0#64 := by
  decide +kernel

/-- Two adjacent subnormals, and an admitted configuration. -/
theorem witness_DifferentValuesDifferByNonzero :
    isFinite .binary32 1#64 = true ∧ isFinite .binary32 2#64 = true ∧ fpUnits .binary32 1#64 ≠ fpUnits .binary32 2#64 ∧
    cfgC.admitted = true := by
  decide +kernel

theorem witness_NoNaNFromAnyCode : cfgD.admitted = true ∧ cfgWide.admitted = true := by
  decide +kernel

theorem witness_UcvMultipliesByTheFactor :
    halted.ft = true ∧ State.reset.ft = false ∧ State.reset.pv = false ∧
    (withPressure cfgC 0#64).ft = false ∧ (withPressure cfgC 0#64).pv = true := by
  decide

theorem witness_UnitConversionSpecialValues :
    cfgC.admitted = true ∧ cfgWide.admitted = true ∧ isNaN cfgC.fmt 0xFF800000#64 = false ∧
    isNaN cfgC.fmt 0x80000000#64 = false := by
  decide +kernel

theorem witness_UnitFactorIsNearest :
    0 < Format.infMagnitude .binary32 ∧ Format.infMagnitude .binary64 - 1 < Format.infMagnitude .binary64 := by
  decide

theorem witness_ConvWritesAllResults :
    halted.ft = true ∧ inFlight.ft = false ∧ inFlight.fstate = .inFlight ∧
    State.reset.ft = false ∧ State.reset.fstate = .empty ∧
    (loaded cfgB frameIdle).ft = false ∧ (loaded cfgB frameIdle).fstate = .loaded := by
  decide

theorem witness_ConvEqualsTheSequence :
    halted.ft = true ∧ (loaded cfgB frameIdle).fstate = .loaded ∧ inFlight.ft = false ∧ inFlight.fstate ≠ .loaded ∧
    State.reset.ft = false ∧ State.reset.fstate ≠ .loaded := by
  decide

theorem witness_ResultsDependOnSampleBitsOnly :
    (loaded cfgB frame123456).cfg = (loaded cfgB frame123456Noisy).cfg ∧
    sampleBitsAgree (loaded cfgB frame123456).frame (loaded cfgB frame123456Noisy).frame ∧
    (loaded cfgB frame123456).ft = false ∧ (loaded cfgB frame123456Noisy).ft = false ∧
    (loaded cfgB frame123456).fstate = .loaded ∧ (loaded cfgB frame123456Noisy).fstate = .loaded :=
  ⟨rfl, sampleBitsAgree_noisy, rfl, rfl, rfl, rfl⟩

theorem witness_XferDoneTransitions :
    halted.ft = true ∧ State.reset.ft = false ∧ State.reset.fstate ≠ .inFlight ∧
    inFlight.ft = false ∧ inFlight.fstate = .inFlight ∧ (frameIdle.take 7).length ≠ 8 ∧
    (frameIdle ++ [0x00#8]).length ≠ 8 ∧ ([] : List Byte).length ≠ 8 ∧ frameIdle.length = 8 ∧
    Memory.wf inFlight.frame = true := by
  decide

/-- With a read of STATUS between the XFER_DONE and the DEC. -/
theorem witness_DecReadsTheDeliveredBytes :
    (hostTurn inFlight (.read 5)).ft = false ∧ (hostTurn inFlight (.read 5)).fstate = .inFlight ∧
    frameIdle.length = 8 ∧ Memory.wf (hostTurn inFlight (.read 5)).frame = true ∧
    ∃ t u, perform (.xferDone frameIdle) (hostTurn inFlight (.read 5)) = .next t ∧ Steps t [.read 5] u ∧
      .xferStart ∉ [Event.read 5] ∧ .reset ∉ [Event.read 5] ∧ u.ft = false :=
  ⟨rfl, rfl, rfl, rfl, _, _, rfl, .snoc [] _ _ .none rfl, by decide, by decide, rfl⟩

theorem witness_OnlyXferDoneWritesTheFrame :
    ∃ t, step (envTurn inFlight (.xferDone frameIdle)) = .next t ∧
      nextEvent (envTurn inFlight (.xferDone frameIdle)) ≠ .reset ∧
      t.frame ≠ (envTurn inFlight (.xferDone frameIdle)).frame :=
  ⟨_, rfl, by decide, by decide⟩

theorem witness_StalledTransferStaysInFlight :
    ∃ t, (hostTurn inFlight (.command 0x01#8)).fstate = .inFlight ∧
      step (hostTurn inFlight (.command 0x01#8)) = .next t ∧
      nextEvent (hostTurn inFlight (.command 0x01#8)) ≠ .reset ∧
      ∀ bytes, nextEvent (hostTurn inFlight (.command 0x01#8)) ≠ .xferDone bytes :=
  ⟨_, rfl, rfl, by decide, fun bytes h => by cases h⟩

theorem witness_LoadedFrameStaysUntilNextStart :
    ∃ t, (envTurn converted (.xferDone frameIdle)).fstate = .loaded ∧
      step (envTurn converted (.xferDone frameIdle)) = .next t ∧
      nextEvent (envTurn converted (.xferDone frameIdle)) ≠ .xferStart ∧
      nextEvent (envTurn converted (.xferDone frameIdle)) ≠ .reset ∧
      converted.ft = false ∧ converted.fstate = .loaded ∧ ∃ u, exec .dec converted = .next u :=
  ⟨_, rfl, rfl, by decide, by decide, rfl, rfl, ⟨_, rfl⟩⟩

theorem witness_LateCompletionAfterResetFaults :
    (started inFlight [] [.xferDone frameIdle] [.reset, .environment]).cfg.admitted = true ∧
    (started inFlight [] [.xferDone frameIdle] [.reset, .environment]).fstate = .inFlight ∧
    (hostTurn State.reset (.read 5)).fstate = .empty ∧ nextEvent (hostTurn State.reset (.read 5)) ≠ .xferStart ∧
    State.reset.ft = false := by
  decide +kernel

theorem witness_LateCompletionAfterResetFaults_step : ∃ t, step (hostTurn State.reset (.read 5)) = .next t :=
  ⟨_, rfl⟩

theorem witness_FaultsArePrecise :
    (∃ t, perform (.command 0x01#8) inFlight = .next t ∧ inFlight.ft = false ∧ t.ft = true) ∧
    ∃ t, perform (.command 0x00#8) halted = .next t ∧ halted.ft = true ∧ Event.command 0x00#8 ≠ .reset :=
  ⟨⟨_, rfl, rfl, rfl⟩, ⟨_, rfl, rfl, by decide⟩⟩

theorem witness_HaltedUntilReset :
    halted.ft = true ∧ specifiedWord halted 5 = some 0x42#64 ∧ specifiedWord halted 6 = some 2#64 ∧
    nextIs (perform .reset halted) (fun t => !t.ft) = true := by
  decide

theorem witness_FaultPriority :
    halted.ft = true ∧ State.reset.ft = false ∧ decodeWord 0x10#8 = .error .reservedBitsSet ∧
    (exec .dec State.reset = .next { State.reset with ft := true, cause := .noOperand }) ∧
    State.reset.fstate ≠ .inFlight ∧ [0x00#8].length ≠ 8 :=
  ⟨rfl, rfl, by decide, rfl, by decide, by decide⟩

/-- One event for each cause. -/
theorem witness_CausesAndTheirRaisers :
    nextIs (perform (.xferDone []) inFlight) (fun t => t.ft && t.cause = .frameLength) = true ∧
    nextIs (perform (.command 0x05#8) inFlight) (fun t => t.ft && t.cause = .frameInFlight) = true ∧
    nextIs (perform (.command 0x06#8) inFlight) (fun t => t.ft && t.cause = .illegalCommand) = true ∧
    nextIs (perform (.command 0x01#8) State.reset) (fun t => t.ft && t.cause = .noOperand) = true ∧
    nextIs (perform (.command 0x04#8) State.reset) (fun t => t.ft && t.cause = .noOperand) = true ∧
    nextIs (perform .xferStart inFlight) (fun t => t.ft && t.cause = .protocol) = true ∧
    inFlight.ft = false ∧ State.reset.ft = false := by
  decide

theorem witness_ValidBitsSayWritten :
    (∃ t, perform .reset converted = .next t) ∧ (∃ t, perform (.command 0x01#8) converted = .next t) ∧
    converted.rv = true ∧ converted.sv = true ∧ converted.pv = true ∧ converted.uv = true ∧
    nextIs (perform (.command 0x05#8) (loaded Config.exampleA frame123456)) (fun t => t.raw ≠ State.reset.raw) = true ∧
    (∀ i : Instr, ∃ t, exec i converted = .next t ∧ t.ft = false) ∧
    State.reset.ft = false ∧ State.reset.rv = false ∧ State.reset.sv = false ∧ State.reset.pv = false :=
  ⟨⟨_, rfl⟩, ⟨_, rfl⟩, rfl, rfl, rfl, rfl, by decide +kernel, fun i => by cases i <;> exact ⟨_, rfl, rfl⟩,
    rfl, rfl, rfl, rfl⟩

theorem witness_EventsLeaveResultsStale :
    (∃ t, perform .xferStart converted = .next t) ∧ ∃ t, perform (.xferDone frameIdle) inFlight = .next t :=
  ⟨⟨_, rfl⟩, ⟨_, rfl⟩⟩

theorem witness_StatusBits : 7 ≤ 7 ∧ (status converted).getLsbD 0 = true ∧ (status inFlight).getLsbD 1 = true := by
  decide

theorem witness_FaultRegisterShowsTheCode : State.reset.causeMatches ∧ halted.causeMatches :=
  ⟨by simp [State.causeMatches, State.reset], by simp [State.causeMatches, halted, inFlight]⟩

theorem witness_ReadPortMap :
    converted.rv = true ∧ converted.sv = true ∧ converted.pv = true ∧ converted.uv = true := by
  decide

theorem reset_inv : State.reset.Inv :=
  ⟨by decide +kernel, by unfold State.rawIsCode; decide, by unfold State.srawIsSigned; decide,
    fun h => absurd h (by decide), by unfold State.noNaN isNumber; decide +kernel,
    by simp [State.causeMatches, State.reset], by decide⟩

theorem witness_InvariantHoldsAtReset : cfgC.admitted = true := by decide +kernel

theorem witness_StepKeepsInvariant : State.reset.Inv ∧ ∃ t, step State.reset = .next t :=
  ⟨reset_inv, ⟨_, rfl⟩⟩

/-- A transfer, its completion and a CONV reach a state with SV set. -/
theorem witness_ReachableRegisterRelations : ∃ s, Reachable s ∧ s.sv = true :=
  ⟨_, .step _ _ (.step _ _ (.step _ _
    (.start Config.exampleA [.command 0x05#8] [.xferStart, .xferDone frameIdle] [.environment, .environment, .host]
      (by decide +kernel)) rfl) rfl) rfl, rfl⟩

theorem witness_ReachableRegisterRanges : Reachable State.reset ∧ 24 ≤ 31 :=
  ⟨.start Config.exampleA [] [] [] (by decide +kernel), by decide⟩

theorem witness_FreshResultsAreOfTheLoadedFrame :
    Fresh.holds ⟨true, true, true, true⟩ converted ∧ (∃ t, step (hostTurn converted (.command 0x01#8)) = .next t ∧ t.ft = false) ∧
    ∃ t, step (hostTurn converted (.command 0x06#8)) = .next t ∧ t.ft = true :=
  ⟨⟨fun _ => by decide, fun _ => ⟨by decide, by decide +kernel⟩, fun _ => by decide +kernel, fun _ => by decide +kernel⟩,
    ⟨_, rfl, rfl⟩, ⟨_, rfl, rfl⟩⟩

/-- The last frame is the idle pattern, converted by a CONV after its XFER_DONE. -/
def goodEvents : List Event := [.xferStart, .xferDone frameIdle, .command 0x05#8]

theorem goodEvents_convert : convertsMostRecentFrame goodEvents :=
  ⟨frameIdle, [.command 0x05#8], rfl, .inl (by decide)⟩

/-- Program P1 without its reset: DEC, SXT, CAL and UCV with a read between. -/
theorem test_staged_conversion_counts :
    hasConversion [.command 0x01#8, .command 0x02#8, .read 2, .command 0x03#8, .command 0x04#8] :=
  .inr (by decide)

/-- Program P2, steps 2 to 8: the CONV came before the last XFER_DONE, and a DEC alone does not count. -/
theorem test_stale_conversion_does_not_count :
    sinceLastTransfer [.xferStart, .xferDone frame123456, .command 0x05#8, .xferStart, .xferDone frameIdle,
      .command 0x01#8, .read 2] = some (frameIdle, [.command 0x01#8, .read 2]) ∧
    (Fresh.over [.xferStart, .xferDone frame123456, .command 0x05#8, .xferStart, .xferDone frameIdle,
      .command 0x01#8, .read 2]) = ⟨true, false, false, false⟩ ∧
    ¬ hasConversion [.command 0x01#8, .read 2] := by
  refine ⟨by decide, by decide, ?_⟩
  unfold hasConversion
  decide

/-- A run with those events, at its end: the host has nothing left to issue. -/
theorem good_run : ∃ t, EndedRun Config.exampleA goodEvents t ∧ t.ft = false ∧ t.uv = true := by
  have h0 := Steps.none (s := State.start Config.exampleA [.command 0x05#8] [.xferStart, .xferDone frameIdle]
    [.environment, .environment, .host])
  have h1 := Steps.snoc _ _ _ h0 rfl
  have h2 := Steps.snoc _ _ _ h1 rfl
  have h3 := Steps.snoc _ _ _ h2 rfl
  exact ⟨_, ⟨⟨by decide +kernel, _, _, _, h3⟩, .inl rfl⟩, rfl, rfl⟩

theorem witness_FreshnessOverARun :
    ∃ t, Run Config.exampleA goodEvents t ∧ t.ft = false ∧ t.uv = true :=
  good_run.imp fun _ h => ⟨h.1.1, h.2⟩

theorem witness_GoodRunShowsTheMostRecentFrame :
    ∃ t, Run Config.exampleA goodEvents t ∧ hasReadMostRecentFrame goodEvents t :=
  good_run.imp fun _ h => ⟨h.1.1, h.2.1, h.2.2, goodEvents_convert⟩

/-- The host has stopped and the environment starts a transfer. -/
theorem witness_EndedRunStaysEnded :
    (envTurn converted .xferStart).hostStopped ∧ (∃ t, step (envTurn converted .xferStart) = .next t) ∧
    nextEvent (envTurn converted .xferStart) ≠ .reset :=
  ⟨.inl rfl, ⟨_, rfl⟩, by decide⟩

end Sys2Proof.Tests
end

section
/-! The scope statements (spec/00_scope.md): the configuration stays (R4), and K_UNIT is the nearest
value of each format (R4, R87, R89). -/

namespace Sys2Proof.Machine

/-! ### The configuration -/

/-- Writing the four results leaves the configuration. -/
@[simp] theorem State.setResults_cfg (s : State) (r : RawCode) : (s.setResults r).cfg = s.cfg := by
  simp [State.setResults]

/-- Taking a turn leaves the configuration: it changes the inputs only. -/
@[simp] theorem takeEvent_cfg (s : State) : (takeEvent s).cfg = s.cfg := by
  obtain ⟨host, env, turns, h⟩ := takeEvent_eq_setInputs s
  rw [h, State.setInputs_cfg]

/-- No effect of an event touches the configuration, reset's among them (R20, R132). -/
theorem Effect.cfg_eq {e : Event} {s t : State} (h : Effect e s t) : t.cfg = s.cfg := by
  cases h with
  | idle | halted => rfl
  | reset => exact resetBlock_cfg s
  | read => exact State.answerRead_cfg s _ _
  | faulted => exact State.latch_cfg s _
  | started => exact State.setTransfer_cfg s _
  | completed => rw [State.setTransfer_cfg, State.setFrame_cfg]
  | dec => exact State.setRaw_cfg s _
  | sxt => exact State.setSigned_cfg s _ _
  | cal => exact State.setPrimary_cfg s _
  | ucv => exact State.setSecondary_cfg s _
  | conv => exact State.setResults_cfg s _

/-- Settles O8: a step takes a turn and performs one effect, and neither touches the configuration. -/
theorem configurationNeverChanges : Obligations.ConfigurationNeverChanges := by
  unfold Obligations.ConfigurationNeverChanges
  intro s t h
  obtain ⟨-, heff⟩ := step_effect h
  rw [heff.cfg_eq, takeEvent_cfg]

/-! ### The unit factor -/

/-- Among the values of a monotone `u`, `u p` is nearest to the rational `T / c` if `T / c` lies
between the midpoints of `u p` with its two neighbours. -/
theorem nearest_of_between_midpoints {u : Nat → Nat} (hu : Monotone u) {c T p : Nat}
    (hlow : (u (p - 1) + u p) * c ≤ 2 * T) (hhigh : 2 * T ≤ (u p + u (p + 1)) * c) (q : Nat) :
    ((u p * c : Int) - T).natAbs ≤ ((u q * c : Int) - T).natAbs := by
  have scaled {a b : Nat} (h : a ≤ b) : u a * c ≤ u b * c := Nat.mul_le_mul_right c (hu h)
  rw [Nat.add_mul] at hlow hhigh
  rcases lt_trichotomy q p with h | rfl | h
  · have hq := scaled (Nat.le_sub_one_of_lt h)
    have hp := scaled (Nat.sub_le p 1)
    omega
  · exact le_rfl
  · have hq := scaled (Nat.add_one_le_of_lt h)
    have hp := scaled (Nat.le_add_right p 1)
    omega

/-- In each format 0.0980665 lies between the midpoints of K_UNIT with the values just below and just
above it. -/
theorem unitFactor_between_midpoints (f : Format) :
    (magnitudeUnits f (fpMagnitude f (unitFactor f) - 1) + magnitudeUnits f (fpMagnitude f (unitFactor f)))
        * 10000000 ≤ 2 * (980665 * 2 ^ f.unitBits) ∧
    2 * (980665 * 2 ^ f.unitBits) ≤
      (magnitudeUnits f (fpMagnitude f (unitFactor f)) + magnitudeUnits f (fpMagnitude f (unitFactor f) + 1))
        * 10000000 := by
  cases f <;> decide +kernel

/-- K_UNIT is a positive finite value of each format. -/
theorem unitFactor_finite_positive (f : Format) :
    isFinite f (unitFactor f) = true ∧ fpNegative f (unitFactor f) = false := by
  cases f <;> decide +kernel

/-- Settles O31: values rise with their patterns, so that it suffices to compare K_UNIT with its two
neighbours. -/
theorem unitFactorIsNearest : Obligations.UnitFactorIsNearest := by
  unfold Obligations.UnitFactorIsNearest
  intro f q _
  obtain ⟨hfinite, hpositive⟩ := unitFactor_finite_positive f
  obtain ⟨hlow, hhigh⟩ := unitFactor_between_midpoints f
  refine ⟨hfinite, hpositive, ?_⟩
  exact_mod_cast nearest_of_between_midpoints (magnitudeUnits_strictMono f).monotone hlow hhigh q

end Sys2Proof.Machine
end

section
/-! What rounding and the operations can give: the range of a rounded magnitude, and which operations give
a value that is not a NaN (spec/42_calibration.md R81, R82). -/

namespace Sys2Proof.Machine

/-! ### The range of a rounded magnitude -/

/-- The nearest whole number to `n / d` is at most twice it: 0 is no nearer. -/
theorem roundHalfEven_mul_le (n : Nat) {d : Nat} (hd : 0 < d) : roundHalfEven n d * d ≤ 2 * n := by
  obtain ⟨hnear, -⟩ := roundHalfEven_nearest n hd 0
  zify
  omega

/-- `n / d` is at least the midpoint of its nearest whole number and the number below that one. -/
theorem roundHalfEven_midpoint_le {n d k : Nat} (hd : 0 < d) (hk : roundHalfEven n d = k + 1) :
    k * d + (k + 1) * d ≤ 2 * n := by
  obtain ⟨hnear, -⟩ := roundHalfEven_nearest n hd k
  rw [hk] at hnear
  push_cast [add_mul] at hnear
  zify [add_mul]
  omega

/-- A rounded magnitude before it is cut at infinity (R81). -/
def uncutMagnitude (f : Format) (n d : Nat) : Nat :=
  quantumExponent f n d * 2 ^ f.fracBits + roundHalfEven n (d * 2 ^ quantumExponent f n d)

theorem roundMagnitude_eq_min (f : Format) (n d : Nat) :
    roundMagnitude f n d = min f.infMagnitude (uncutMagnitude f n d) := rfl

/-- A value other than 0 is not rounded to 0 units: the quantum of the lowest binade is the unit (R81). -/
theorem roundMagnitude_ne_zero (f : Format) {n : Nat} (hn : n ≠ 0) : roundMagnitude f n 1 ≠ 0 := by
  have hP := one_lt_pow_frac f
  have hinf : 0 < f.infMagnitude := by cases f <;> decide
  have huncut : 0 < uncutMagnitude f n 1 := by
    unfold uncutMagnitude
    rcases Nat.eq_zero_or_pos (quantumExponent f n 1) with he | he
    · simp [he, roundHalfEven, Nat.mod_one, Nat.pos_of_ne_zero hn]
    · positivity
  rw [roundMagnitude_eq_min]
  omega

/-- An uncut magnitude stands for a whole number of quanta of its binade. -/
theorem magnitudeUnits_uncutMagnitude (f : Format) (n : Nat) {d : Nat} (hd : 0 < d) :
    magnitudeUnits f (uncutMagnitude f n d) * d =
      roundHalfEven n (d * 2 ^ quantumExponent f n d) * (d * 2 ^ quantumExponent f n d) := by
  obtain ⟨hs, hgrid⟩ := rounding_grid f n hd
  rw [uncutMagnitude, magnitudeUnits_grid f hs (hgrid.imp_right And.left)]
  ring

/-- A rounded magnitude stands for at most twice the value rounded. -/
theorem magnitudeUnits_roundMagnitude_le (f : Format) (n : Nat) {d : Nat} (hd : 0 < d) :
    magnitudeUnits f (roundMagnitude f n d) * d ≤ 2 * n :=
  calc magnitudeUnits f (roundMagnitude f n d) * d
      ≤ magnitudeUnits f (uncutMagnitude f n d) * d :=
        Nat.mul_le_mul_right d ((magnitudeUnits_strictMono f).monotone (Nat.min_le_right _ _))
    _ = roundHalfEven n (d * 2 ^ quantumExponent f n d) * (d * 2 ^ quantumExponent f n d) :=
        magnitudeUnits_uncutMagnitude f n hd
    _ ≤ 2 * n := roundHalfEven_mul_le n (by positivity)

/-- The value rounded is at least the midpoint of its uncut magnitude and the pattern below that one. At
the foot of a binade that pattern belongs to the next lower one, and nothing was rounded up. -/
theorem midpoint_below_uncutMagnitude_le {f : Format} {n d : Nat} (hd : 0 < d) (hp : uncutMagnitude f n d ≠ 0) :
    (magnitudeUnits f (uncutMagnitude f n d - 1) + magnitudeUnits f (uncutMagnitude f n d)) * d ≤ 2 * n := by
  have hP := one_lt_pow_frac f
  have hunits := magnitudeUnits_uncutMagnitude f n hd
  have hbelow := (magnitudeUnits_strictMono f).monotone (Nat.sub_le (uncutMagnitude f n d) 1)
  obtain ⟨hs, hgrid⟩ := rounding_grid f n hd
  obtain ⟨k, hk⟩ : ∃ k, roundHalfEven n (d * 2 ^ quantumExponent f n d) = k + 1 := by
    refine Nat.exists_eq_add_one_of_ne_zero fun h => ?_
    rw [uncutMagnitude, h] at hp
    rw [h] at hgrid
    rcases hgrid with he | ⟨hge, -⟩
    · simp [he] at hp
    · omega
  have hmid := roundHalfEven_midpoint_le (by positivity) hk
  unfold uncutMagnitude at hunits hbelow ⊢
  rw [hk] at hs hgrid hunits hbelow ⊢
  generalize quantumExponent f n d = e at *
  by_cases hfoot : e = 0 ∨ 2 ^ f.fracBits ≤ k
  · have hj : magnitudeUnits f (e * 2 ^ f.fracBits + k) = k * 2 ^ e := magnitudeUnits_grid f (by omega) hfoot
    rw [Nat.add_mul, hunits, Nat.add_succ_sub_one, hj, Nat.mul_assoc, Nat.mul_comm (2 ^ e) d]
    exact hmid
  · have hfoot : k + 1 = 2 ^ f.fracBits := by omega
    have hn : (k + 1) * (d * 2 ^ e) ≤ n := by
      rw [hfoot, Nat.mul_comm d, ← Nat.mul_assoc]
      exact (hgrid.resolve_left (by omega)).2
    have := Nat.mul_le_mul_right d hbelow
    rw [Nat.add_mul]
    omega

/-- Below the overflow threshold, half way from the largest finite value to infinity's pattern, rounding
stays finite. -/
theorem roundMagnitude_lt_inf {f : Format} {n d : Nat} (hd : 0 < d)
    (h : 2 * n < (magnitudeUnits f (f.infMagnitude - 1) + magnitudeUnits f f.infMagnitude) * d) :
    roundMagnitude f n d < f.infMagnitude := by
  have hmono := (magnitudeUnits_strictMono f).monotone
  have hinf : 0 < f.infMagnitude := by cases f <;> decide
  rw [roundMagnitude_eq_min]
  by_contra hcut
  have hle : f.infMagnitude ≤ uncutMagnitude f n d := by omega
  have hmid := midpoint_below_uncutMagnitude_le (f := f) (n := n) hd (by omega)
  have := Nat.mul_le_mul_right d (Nat.add_le_add (hmono (Nat.sub_le_sub_right hle 1)) (hmono hle))
  omega

/-! ### Values that are not NaNs -/

theorem isNumber_fpPack {f : Format} (a : Bool) {m : Nat} (h : m ≤ f.infMagnitude) :
    isNumber f (fpPack f a m) := by
  have hm := Nat.lt_of_le_of_lt h (infMagnitude_lt_signWeight f)
  exact ⟨isPattern_pack f a hm, by simpa [isNaN, fpMagnitude_pack f a hm] using h⟩

theorem isNumber_fl (f : Format) (a : Bool) (v : Int) (d : Nat) : isNumber f (fl f a v d) :=
  isNumber_fpPack _ (roundMagnitude_le f _ _)

theorem isNumber_fpInfinity (f : Format) (a : Bool) : isNumber f (fpInfinity f a) := isNumber_fpPack a le_rfl

theorem isNumber_zero (f : Format) : isNumber f 0#64 := isNumber_fpPack false (Nat.zero_le _)

/-- What is not a NaN is an infinity or finite. -/
theorem classify_of_not_nan {f : Format} {w : FpWord} (h : isNaN f w = false) :
    classify f w = .infinite (fpNegative f w) ∨ classify f w = .finite (fpNegative f w) (fpUnits f w) := by
  cases hfin : isFinite f w <;> simp [classify, h, hfin]

theorem isFinite_fl {f : Format} {a : Bool} {v : Int} {d : Nat} (hd : 0 < d)
    (h : 2 * v.natAbs < (magnitudeUnits f (f.infMagnitude - 1) + magnitudeUnits f f.infMagnitude) * d) :
    isFinite f (fl f a v d) = true := by
  rw [isFinite, fl_magnitude]
  exact decide_eq_true (roundMagnitude_lt_inf hd h)

/-- A finite value is at most the largest one. -/
theorem natAbs_fpUnits_le {f : Format} {w : FpWord} (h : isFinite f w = true) :
    (fpUnits f w).natAbs ≤ magnitudeUnits f (f.infMagnitude - 1) := by
  rw [natAbs_units]
  exact (magnitudeUnits_strictMono f).monotone (Nat.le_sub_one_of_lt (of_decide_eq_true h))

/-! ### The operations on finite values, and where one is infinite -/

theorem fpAdd_of_finite {f : Format} {x y : FpWord} (hx : isFinite f x = true) (hy : isFinite f y = true) :
    fpAdd f x y = fl f (fpNegative f x && fpNegative f y) (fpUnits f x + fpUnits f y) 1 := by
  rw [fpAdd, classify_of_finite hx, classify_of_finite hy]

theorem fpSub_of_finite {f : Format} {x y : FpWord} (hx : isFinite f x = true) (hy : isFinite f y = true) :
    fpSub f x y = fl f (fpNegative f x && !fpNegative f y) (fpUnits f x - fpUnits f y) 1 := by
  rw [fpSub, fpAdd_of_finite hx (negate_finite f y ▸ hy), negate_negative, negate_units, Int.sub_eq_add_neg]

/-- A finite addend makes no NaN. -/
theorem isNumber_fpAdd {f : Format} {x y : FpWord} (hx : isNumber f x) (hy : isFinite f y = true) :
    isNumber f (fpAdd f x y) := by
  rw [fpAdd, classify_of_finite hy]
  rcases classify_of_not_nan hx.2 with h | h <;> rw [h]
  · exact isNumber_fpInfinity f _
  · exact isNumber_fl f _ _ _

theorem isNumber_fpMul_of_finite {f : Format} {x y : FpWord} (hx : isFinite f x = true) (hy : isFinite f y = true) :
    isNumber f (fpMul f x y) := by
  rw [fpMul, classify_of_finite hx, classify_of_finite hy]
  exact isNumber_fl f _ _ _

/-- A finite factor other than 0 makes no NaN. -/
theorem isNumber_fpMul_of_ne_zero {f : Format} {x y : FpWord} (hx : isNumber f x) (hy : isFinite f y = true)
    (h0 : fpUnits f y ≠ 0) : isNumber f (fpMul f x y) := by
  rw [fpMul, classify_of_finite hy]
  rcases classify_of_not_nan hx.2 with h | h <;> rw [h]
  · simpa [h0] using isNumber_fpInfinity f _
  · exact isNumber_fl f _ _ _

theorem isNumber_fpFma_of_finite {f : Format} {x y z : FpWord} (hx : isFinite f x = true) (hy : isFinite f y = true)
    (hz : isFinite f z = true) : isNumber f (fpFma f x y z) := by
  rw [fpFma, classify_of_finite hx, classify_of_finite hy, classify_of_finite hz]
  exact isNumber_fl f _ _ _

end Sys2Proof.Machine
end

section
/-! Admitted configurations (spec/10_state.md R12), raw codes in their registers (R13,
spec/41_sign_converter.md R70, R71), and what the calibration makes of a code (spec/42_calibration.md R82). -/

namespace Sys2Proof.Machine

/-! ### Admitted configurations -/

theorem isFiniteValue_iff {f : Format} {w : FpWord} :
    isFiniteValue f w = true ↔ w.toNat < 2 ^ f.width ∧ isFinite f w = true := by
  simp [isFiniteValue, isPattern]

/-- The five conditions of R12. -/
theorem admitted_iff {c : Config} : c.admitted = true ↔
    (∀ w ∈ [c.raw1, c.p1, c.raw2, c.p2], w.toNat < 2 ^ c.fmt.width ∧ isFinite c.fmt w = true) ∧
    fpUnits c.fmt c.raw1 ≠ fpUnits c.fmt c.raw2 ∧ isFinite c.fmt (slope c) = true ∧
    c.modesSelected = 1 ∧ c.kUnit = unitFactor c.fmt := by
  simp [Config.admitted, Config.pointsAreFinite, Config.rawsDiffer, Config.slopeIsFinite, Config.oneMode,
    Config.unitFactorIsRight, isFiniteValue_iff, and_assoc]

theorem unitFactor_units_ne_zero (f : Format) : fpUnits f (unitFactor f) ≠ 0 := by
  cases f <;> decide +kernel

/-! ### Steps and the configuration -/

theorem exec_next (i : Instr) (s : State) : ∃ t, exec i s = .next t := by
  cases i <;> exact ⟨_, rfl⟩

theorem perform_next (e : Event) (s : State) : ∃ t, perform e s = .next t := by
  cases e with
  | command w =>
    simp only [perform, runCommand]
    split
    · exact exec_next _ s
    · exact ⟨_, rfl⟩
  | idle | reset | read | xferStart | xferDone => exact ⟨_, rfl⟩

theorem step_of_not_admitted {s : State} (h : s.cfg.admitted = false) :
    step s = .refused .configurationNotAdmitted := by
  simp [step, turn, h]

/-- Settles O7: the five checks are the five conditions, and a step looks at nothing else. -/
theorem onlyAdmittedConfigurationsRun : Obligations.OnlyAdmittedConfigurationsRun := by
  unfold Obligations.OnlyAdmittedConfigurationsRun
  refine ⟨fun c => admitted_iff, fun s h => step_of_not_admitted h, fun s h => ?_⟩
  rw [step_of_admitted h]
  exact perform_next _ _

/-! ### The difference of the raw values -/

/-- A rounded difference is 0 only if the exact one is. -/
theorem fpSub_magnitude_ne_zero {f : Format} {x y : FpWord} (hx : isFinite f x = true) (hy : isFinite f y = true)
    (hne : fpUnits f x ≠ fpUnits f y) : fpMagnitude f (fpSub f x y) ≠ 0 := by
  rw [fpSub_of_finite hx hy, fl_magnitude]
  exact roundMagnitude_ne_zero f (Int.natAbs_ne_zero.mpr (sub_ne_zero.mpr hne))

/-- Settles O27: the exact difference is a whole number of units other than 0. -/
theorem differentValuesDifferByNonzero : Obligations.DifferentValuesDifferByNonzero := by
  unfold Obligations.DifferentValuesDifferByNonzero
  refine ⟨fun f x y => fpSub_magnitude_ne_zero, fun c h => ?_⟩
  obtain ⟨hpoints, hdiffer, -, -, -⟩ := admitted_iff.mp h
  exact fpSub_magnitude_ne_zero (hpoints c.raw2 (by simp)).2 (hpoints c.raw1 (by simp)).2 hdiffer.symm

/-! ### Raw codes in their registers -/

theorem codeOf_rawWord (r : RawCode) : codeOf (rawWord r) = r := by
  ext i hi
  simp [codeOf, rawWord, hi, show i < 32 by omega]

/-- The bits 31:24 that R70 sets. -/
theorem signBits_getLsbD {i : Nat} (hi : i < 32) : (0xFF000000#32).getLsbD i = decide (24 ≤ i) := by
  revert i
  decide

/-- The sign extension of R70 is that of a 24-bit word. -/
theorem sextCode_eq_signExtend (r : RawCode) : sextCode r = r.signExtend 32 := by
  have hmsb : r.msb = r.getLsbD 23 := BitVec.msb_eq_getLsbD_last r
  unfold sextCode rawWord
  cases h : r.getLsbD 23
  · exact (BitVec.signExtend_eq_setWidth_of_msb_false (hmsb.trans h)).symm
  · refine BitVec.eq_of_getLsbD_eq fun i hi => ?_
    simp only [if_true, BitVec.getLsbD_or, BitVec.getLsbD_setWidth, BitVec.getLsbD_signExtend, signBits_getLsbD hi]
    rcases Nat.lt_or_ge i 24 with hlow | hhigh
    · simp [hlow, hi]
    · simp [hhigh, hi, hmsb, h, Nat.not_lt.mpr hhigh]

theorem codeOf_sextCode (r : RawCode) : codeOf (sextCode r) = r := by
  rw [sextCode_eq_signExtend]
  ext i hi
  simp [codeOf, BitVec.getElem_signExtend, hi, show i < 32 by omega]

/-- The range of a raw code's signed value (R71). -/
theorem sint_range (r : RawCode) : -8388608 ≤ sint r ∧ sint r ≤ 8388607 := by
  have hlow := BitVec.le_toInt r
  have hhigh := BitVec.toInt_lt (x := r)
  rw [sint, sextCode_eq_signExtend, BitVec.toInt_signExtend_of_le (by omega)]
  omega

/-- A zero-extended code has its upper byte clear (R13). -/
theorem rawWord_upper_bits (r : RawCode) {j : Nat} (hj : 24 ≤ j) : (rawWord r).getLsbD j = false := by
  simp [rawWord, BitVec.getLsbD_setWidth, BitVec.getLsbD_of_ge r j hj]

/-! ### The conversion of a raw code -/

/-- The codes are small beside the quantum of the top binade. -/
theorem codeUnits_below_top_quantum (f : Format) :
    2 * (2 ^ 24 * 2 ^ f.unitBits) + magnitudeUnits f (f.infMagnitude - 1) < magnitudeUnits f f.infMagnitude := by
  cases f <;> decide +kernel

theorem natAbs_sint_units_le (f : Format) (r : RawCode) :
    2 * (sint r * 2 ^ f.unitBits).natAbs ≤ 2 ^ 24 * 2 ^ f.unitBits := by
  have hr := sint_range r
  have hbound : 2 * (sint r).natAbs ≤ 2 ^ 24 := by omega
  rw [Int.natAbs_mul, ← Nat.mul_assoc, Int.natAbs_pow]
  exact Nat.mul_le_mul_right _ hbound

theorem svalOf_finite (f : Format) (r : RawCode) : isFinite f (svalOf f r) = true := by
  have := natAbs_sint_units_le f r
  have := codeUnits_below_top_quantum f
  exact isFinite_fl Nat.one_pos (by omega)

theorem natAbs_svalOf_units_le (f : Format) (r : RawCode) :
    (fpUnits f (svalOf f r)).natAbs ≤ 2 ^ 24 * 2 ^ f.unitBits := by
  have := magnitudeUnits_roundMagnitude_le f (sint r * 2 ^ f.unitBits).natAbs Nat.one_pos
  have := natAbs_sint_units_le f r
  rw [natAbs_units, svalOf, i2f, fl_magnitude]
  omega

/-- R82: no code lies so far from RAW_1 that the distance overflows. -/
theorem offsetFromFirst_finite {c : Config} (h : isFinite c.fmt c.raw1 = true) (r : RawCode) :
    isFinite c.fmt (offsetFromFirst c (svalOf c.fmt r)) = true := by
  have hx := natAbs_svalOf_units_le c.fmt r
  have hy := natAbs_fpUnits_le h
  have htop := codeUnits_below_top_quantum c.fmt
  rw [offsetFromFirst, fpSub_of_finite (svalOf_finite c.fmt r) h]
  exact isFinite_fl Nat.one_pos (by omega)

/-- R82: slope, distance and P_1 are finite, so CAL gives no NaN, fused or not. -/
theorem isNumber_cal {c : Config} (h : c.admitted = true) (r : RawCode) :
    isNumber c.fmt (cal c (svalOf c.fmt r)) := by
  obtain ⟨hpoints, -, hslope, -, -⟩ := admitted_iff.mp h
  obtain ⟨-, hraw1⟩ := hpoints c.raw1 (by simp)
  obtain ⟨-, hp1⟩ := hpoints c.p1 (by simp)
  have hoffset := offsetFromFirst_finite hraw1 r
  unfold cal
  split
  · exact isNumber_fpFma_of_finite hslope hoffset hp1
  · exact isNumber_fpAdd (isNumber_fpMul_of_finite hslope hoffset) hp1

/-- R82: K_UNIT is finite and not 0, so UCV makes no NaN. -/
theorem isNumber_ucv {c : Config} (h : c.admitted = true) {p : FpWord} (hp : isNumber c.fmt p) :
    isNumber c.fmt (ucv c p) := by
  obtain ⟨-, -, -, -, hk⟩ := admitted_iff.mp h
  rw [ucv, hk]
  exact isNumber_fpMul_of_ne_zero hp (unitFactor_finite_positive c.fmt).1 (unitFactor_units_ne_zero c.fmt)

end Sys2Proof.Machine
end

section
/-! The statements about the state: what commands and reset write, valid bits, and the read port
(spec/10_state.md). -/

namespace Sys2Proof.Machine

/-! ### What a command writes -/

/-- DEC and CONV leave everything while a fault is latched, latch one, or have their effect. -/
theorem needsFrame_outcome (s done : State) :
    (s.ft = true ∧ needsFrame s done = s) ∨ (∃ c, needsFrame s done = s.latch c) ∨ needsFrame s done = done := by
  rcases needsFrame_cases s done with h | ⟨-, -, h⟩ | ⟨-, -, h⟩ | ⟨-, -, h⟩
  · exact .inl h
  · exact .inr (.inl ⟨_, h⟩)
  · exact .inr (.inl ⟨_, h⟩)
  · exact .inr (.inr h)

/-- SXT, CAL and UCV likewise. -/
theorem needsValid_outcome (valid : Bool) (s done : State) :
    (s.ft = true ∧ needsValid valid s done = s) ∨ (∃ c, needsValid valid s done = s.latch c) ∨
      needsValid valid s done = done := by
  rcases needsValid_cases s done valid with h | ⟨-, -, h⟩ | ⟨-, -, h⟩
  · exact .inl h
  · exact .inr (.inl ⟨_, h⟩)
  · exact .inr (.inr h)

/-- The state a command leaves where it has its effect (R62, R73, R85, R88, R100). -/
def commandWrite (s : State) : Instr → State
  | .dec => s.setRaw (rawWord (decodeFrame s.frame))
  | .sxt => s.setSigned (sextCode (codeOf s.raw)) (svalOf s.cfg.fmt (codeOf s.raw))
  | .cal => s.setPrimary (cal s.cfg s.sval)
  | .ucv => s.setSecondary (ucv s.cfg s.pri)
  | .conv => s.setResults (decodeFrame s.frame)

/-- What a command can leave: the state while a fault is latched, a fault, or what it writes. -/
theorem exec_cases {i : Instr} {s t : State} (h : exec i s = .next t) :
    (s.ft = true ∧ t = s) ∨ (∃ c, t = s.latch c) ∨ t = commandWrite s i := by
  cases i <;> cases h
  case dec | conv => exact needsFrame_outcome s _
  case sxt | cal | ucv => exact needsValid_outcome _ s _

/-- A command that leaves no fault latched had its effect. -/
theorem exec_of_no_fault {i : Instr} {s t : State} (h : exec i s = .next t) (ht : t.ft = false) :
    t = commandWrite s i := by
  rcases exec_cases h with ⟨hft, rfl⟩ | ⟨c, rfl⟩ | h
  · rw [hft] at ht; cases ht
  · cases ht
  · exact h

/-- Settles O10: a command leaves the state, latches a fault, or writes its stage's registers, and each of
the three changes only what the stage may. -/
theorem commandsWriteOnlyTheirStage : Obligations.CommandsWriteOnlyTheirStage := by
  unfold Obligations.CommandsWriteOnlyTheirStage
  intro s t
  refine ⟨?_, ?_, ?_, ?_, ?_⟩ <;>
    (intro h; rcases exec_cases h with ⟨-, rfl⟩ | ⟨c, rfl⟩ | rfl <;> rfl)

/-! ### Valid bits -/

/-- A source never written makes the fault NO_OPERAND (R14). -/
theorem needsValid_of_invalid {valid : Bool} {s : State} (hft : s.ft = false) (hv : valid = false) (done : State) :
    needsValid valid s done = s.latch .noOperand := by
  rw [needsValid, unlessHalted_of_not_ft hft, hv, if_neg Bool.false_ne_true, raiseFault_of_not_ft hft]

/-- The stages' registers of `t` are valid, or they and their valid bits are those of `s`. -/
structure ValidOrKept (s t : State) : Prop where
  raw : t.rv = true ∨ t.raw = s.raw ∧ t.rv = s.rv
  signed : t.sv = true ∨ t.sraw = s.sraw ∧ t.sval = s.sval ∧ t.sv = s.sv
  primary : t.pv = true ∨ t.pri = s.pri ∧ t.pv = s.pv
  secondary : t.uv = true ∨ t.sec = s.sec ∧ t.uv = s.uv

/-- R14: an event other than a reset writes a result register only together with its valid bit. -/
theorem Effect.validOrKept {e : Event} {s t : State} (heff : Effect e s t) (he : e ≠ .reset) :
    ValidOrKept s t := by
  cases heff with
  | reset => exact absurd rfl he
  | idle | halted | read | faulted | started | completed =>
    exact ⟨.inr ⟨rfl, rfl⟩, .inr ⟨rfl, rfl, rfl⟩, .inr ⟨rfl, rfl⟩, .inr ⟨rfl, rfl⟩⟩
  | dec => exact ⟨.inl rfl, .inr ⟨rfl, rfl, rfl⟩, .inr ⟨rfl, rfl⟩, .inr ⟨rfl, rfl⟩⟩
  | sxt => exact ⟨.inr ⟨rfl, rfl⟩, .inl rfl, .inr ⟨rfl, rfl⟩, .inr ⟨rfl, rfl⟩⟩
  | cal => exact ⟨.inr ⟨rfl, rfl⟩, .inr ⟨rfl, rfl, rfl⟩, .inl rfl, .inr ⟨rfl, rfl⟩⟩
  | ucv => exact ⟨.inr ⟨rfl, rfl⟩, .inr ⟨rfl, rfl, rfl⟩, .inr ⟨rfl, rfl⟩, .inl rfl⟩
  | conv => exact ⟨.inl rfl, .inl rfl, .inl rfl, .inl rfl⟩

/-- Settles O47: a step writes a register only with its valid bit, a command that leaves no fault had its
effect, and an unwritten source raises NO_OPERAND. -/
theorem validBitsSayWritten : Obligations.ValidBitsSayWritten := by
  unfold Obligations.ValidBitsSayWritten
  refine ⟨?_, ?_, ?_, ?_⟩
  · rintro s t ⟨⟩
    exact ⟨rfl, rfl, rfl, rfl⟩
  · intro s t e h he
    obtain ⟨hraw, hsigned, hprimary, hsecondary⟩ := (perform_effect h).validOrKept he
    grind
  · intro s t ht
    refine ⟨fun h => ?_, fun h => ?_, fun h => ?_, fun h => ?_, fun h => ?_⟩ <;> rw [exec_of_no_fault h ht]
    · rfl
    · rfl
    · rfl
    · rfl
    · exact ⟨rfl, rfl, rfl, rfl⟩
  · intro s hft
    refine ⟨fun hv => ?_, fun hv => ?_, fun hv => ?_⟩ <;>
      exact congrArg Host.Outcome.next (needsValid_of_invalid hft hv _)

/-! ### Command words on the port -/

theorem nextEvent_of_command {s : State} {w : Byte} {rest : List HostStep} {turns : List Agent}
    (hs : s.schedule = .host :: turns) (hq : s.hostQueue = .command w :: rest) : nextEvent s = .command w := by
  simp [nextEvent, hs, hq]

theorem takeEvent_of_host {s : State} {step : HostStep} {rest : List HostStep} {turns : List Agent}
    (hs : s.schedule = .host :: turns) (hq : s.hostQueue = step :: rest) :
    takeEvent s = { s with hostQueue := rest, schedule := turns } := by
  rw [takeEvent, hs, hq]
  rfl

/-- R112, R113: a fault raised unless one is latched. -/
theorem unlessHalted_raiseFault (s : State) (c : Cause) :
    unlessHalted s (raiseFault c s) = { s with ft := true, cause := if s.ft then s.cause else c } := by
  cases h : s.ft
  · rw [unlessHalted_of_not_ft h, raiseFault_of_not_ft h]
    rfl
  · rw [unlessHalted_of_ft h, if_pos rfl, ← h]

/-- Settles O4: the turn takes the word off, and the decoder says what becomes of it. -/
theorem stepRunsDecodedCommand : Obligations.StepRunsDecodedCommand := by
  unfold Obligations.StepRunsDecodedCommand
  intro s w rest turns hcfg hs hq
  rw [step_of_admitted hcfg, nextEvent_of_command hs hq, takeEvent_of_host hs hq, perform]
  refine ⟨fun i hw => ?_, fun r hw => ?_⟩
  · rw [runCommand, hw]
  · rw [runCommand, hw, unlessHalted_raiseFault]

/-! ### Reset -/

theorem status_resetBlock (s : State) : status (resetBlock s) = 0#32 := by
  rw [show status (resetBlock s) = status State.reset from rfl]
  rfl

theorem faultWord_resetBlock (s : State) : faultWord (resetBlock s) = 0#32 := by
  rw [faultWord, resetBlock_cause]
  rfl

/-- Settles O41: the reset event takes these values from the reset state. -/
theorem resetSetsTheGivenValues : Obligations.ResetSetsTheGivenValues := by
  unfold Obligations.ResetSetsTheGivenValues
  intro s
  exact ⟨resetBlock s, rfl, rfl, rfl, rfl, rfl, rfl, rfl, rfl, status_resetBlock s, faultWord_resetBlock s, rfl⟩

/-! ### The read port -/

theorem getLsbD_append_ofBool_zero {n : Nat} (x : BitVec n) (b : Bool) : (x ++ BitVec.ofBool b).getLsbD 0 = b := by
  rw [BitVec.getLsbD_append]
  simp

theorem getLsbD_append_ofBool_succ {n : Nat} (x : BitVec n) (b : Bool) (j : Nat) :
    (x ++ BitVec.ofBool b).getLsbD (j + 1) = x.getLsbD j := by
  simp [BitVec.getLsbD_append]

/-- STATUS is its seven flags, lowest first, below zeros (R15). -/
theorem status_getLsbD (s : State) (j : Nat) :
    (status s).getLsbD j = [statusLoaded s, statusInFlight s, s.rv, s.sv, s.pv, s.uv, s.ft].getD j false := by
  unfold status
  rcases j with _ | _ | _ | _ | _ | _ | _ | j <;>
    simp only [getLsbD_append_ofBool_zero, getLsbD_append_ofBool_succ] <;> simp

theorem perform_read_of_specified {s : State} {index : Nat} {w : PortWord} (h : specifiedWord s index = some w) :
    perform (.read index) s = .next { s with readOut := some w } := by
  rw [perform, readPort, h]
  rfl

theorem perform_read_of_unspecified {s : State} {index : Nat} (h : specifiedWord s index = none) :
    perform (.read index) s =
      .next { s with readOut := some (unspecifiedWord s index), draws := s.draws + 1 } := by
  rw [perform, readPort, h]
  rfl

/-- Settles O49: STATUS is the list of its flags, and the two lowest tell the three transfer states apart. -/
theorem statusBits : Obligations.StatusBits := by
  unfold Obligations.StatusBits
  intro s
  have hloaded : (status s).getLsbD 0 = decide (s.fstate = .loaded) := status_getLsbD s 0
  have hinFlight : (status s).getLsbD 1 = decide (s.fstate = .inFlight) := status_getLsbD s 1
  refine ⟨hloaded ▸ decide_eq_true_iff, hinFlight ▸ decide_eq_true_iff, status_getLsbD s 2, status_getLsbD s 3,
    status_getLsbD s 4, status_getLsbD s 5, status_getLsbD s 6, fun j hj => ?_, ?_, ?_,
    perform_read_of_specified rfl, rfl⟩
  · rw [status_getLsbD]
    exact List.getD_eq_default _ _ hj
  · rw [hloaded, hinFlight]
    cases s.fstate <;> decide
  · rw [hloaded, hinFlight]
    cases s.fstate <;> decide

/-- Settles O50: each cause has its code, and only NONE has code 0. -/
theorem faultRegisterShowsTheCode : Obligations.FaultRegisterShowsTheCode := by
  unfold Obligations.FaultRegisterShowsTheCode
  intro s
  refine ⟨?_, fun h => ?_⟩
  · unfold faultWord
    cases s.cause <;> rfl
  · rw [State.causeMatches] at h
    rw [h, faultWord]
    cases s.cause <;> decide

theorem specifiedWord_zero_lt {s : State} {w : PortWord} (h : specifiedWord s 0 = some w) : w.toNat < 2 ^ 32 := by
  simp only [specifiedWord] at h
  split at h
  · cases h
    rw [BitVec.toNat_setWidth]
    exact Nat.lt_of_le_of_lt (Nat.mod_le _ _) s.raw.isLt
  · cases h

theorem unspecifiedWord_lt (s : State) (index : Nat) :
    (unspecifiedWord s index).toNat < 2 ^ wordWidth s.cfg.fmt index := by
  rw [unspecifiedWord, BitVec.toNat_ofNat]
  exact Nat.lt_of_le_of_lt (Nat.mod_le _ _) (Nat.mod_lt _ (Nat.two_pow_pos _))

/-- Settles O51: a read answers the specified word where there is one, else draws one of the index's width. -/
theorem readPortMap : Obligations.ReadPortMap := by
  unfold Obligations.ReadPortMap
  intro s
  refine ⟨fun h => perform_read_of_specified (if_pos h), fun h => perform_read_of_specified (if_pos h),
    fun h => perform_read_of_specified (if_pos h), fun h => perform_read_of_specified (if_pos h),
    fun h => perform_read_of_specified (if_pos h), perform_read_of_specified rfl, perform_read_of_specified rfl,
    fun index => ?_⟩
  cases h : specifiedWord s index with
  | some w =>
    exact ⟨_, w, perform_read_of_specified h, rfl, fun h0 => specifiedWord_zero_lt (h0 ▸ h)⟩
  | none =>
    exact ⟨_, _, perform_read_of_unspecified h, rfl, fun h0 => h0 ▸ unspecifiedWord_lt s 0⟩

/-- No word of the read port is taken from FRAME (R17, R30). -/
theorem specifiedWord_setFrame (s : State) (m : Memory) (index : Nat) :
    specifiedWord (s.setFrame m) index = specifiedWord s index := rfl

theorem unspecifiedWord_setFrame (s : State) (m : Memory) (index : Nat) :
    unspecifiedWord (s.setFrame m) index = unspecifiedWord s index := rfl

/-- Settles O52: neither the specified nor the drawn word depends on FRAME. -/
theorem frameIsNotReadable : Obligations.FrameIsNotReadable := by
  unfold Obligations.FrameIsNotReadable
  intro s m index
  have hset := specifiedWord_setFrame s m index
  cases h : specifiedWord s index with
  | some w => exact ⟨_, _, perform_read_of_specified h, perform_read_of_specified (hset.trans h), rfl⟩
  | none => exact ⟨_, _, perform_read_of_unspecified h, perform_read_of_unspecified (hset.trans h),
      congrArg some (unspecifiedWord_setFrame s m index)⟩

end Sys2Proof.Machine
end

section
/-! The invariant of spec/10_state.md R13 and R16, spec/41_sign_converter.md R74 and
spec/42_calibration.md R82: it holds after reset, every effect keeps it, so it holds in every reachable state. -/

namespace Sys2Proof.Machine

/-- What a reset event leaves meets the invariant, whatever stood before (R20, log entries 5 and 6). -/
theorem resetBlock_inv {s : State} (h : s.cfg.admitted = true) : (resetBlock s).Inv := by
  refine ⟨h, ?_, ?_, fun hsv => ?_, ⟨isNumber_zero _, isNumber_zero _, isNumber_zero _⟩, ?_, rfl⟩
  · exact congrArg rawWord (codeOf_rawWord 0#24).symm
  · exact congrArg sextCode (codeOf_sextCode 0#24).symm
  · exact absurd hsv Bool.false_ne_true
  · exact iff_of_true rfl rfl

/-- Settles O53: power-on states are states after a reset event. -/
theorem invariantHoldsAtReset : Obligations.InvariantHoldsAtReset :=
  ⟨resetBlock_inv (s := State.reset) (by decide +kernel),
    fun c host env turns hc => resetBlock_inv (s := State.start c host env turns) hc⟩

theorem State.Inv.admitted {s : State} (h : s.Inv) : s.cfg.admitted = true := h.1

theorem setRaw_inv {s : State} (h : s.Inv) (r : RawCode) : (s.setRaw (rawWord r)).Inv := by
  obtain ⟨hcfg, -, hsraw, hsval, hnan, hcause, hwf⟩ := h
  exact ⟨hcfg, congrArg rawWord (codeOf_rawWord r).symm, hsraw, hsval, hnan, hcause, hwf⟩

theorem setSigned_inv {s : State} (h : s.Inv) (r : RawCode) :
    (s.setSigned (sextCode r) (svalOf s.cfg.fmt r)).Inv := by
  obtain ⟨hcfg, hraw, -, -, ⟨-, hpri, hsec⟩, hcause, hwf⟩ := h
  exact ⟨hcfg, hraw, congrArg sextCode (codeOf_sextCode r).symm, fun _ => rfl,
    ⟨isNumber_fl _ _ _ _, hpri, hsec⟩, hcause, hwf⟩

theorem setPrimary_inv {s : State} (h : s.Inv) {p : FpWord} (hp : isNumber s.cfg.fmt p) :
    (s.setPrimary p).Inv := by
  obtain ⟨hcfg, hraw, hsraw, hsval, ⟨hsvalNum, -, hsec⟩, hcause, hwf⟩ := h
  exact ⟨hcfg, hraw, hsraw, hsval, ⟨hsvalNum, hp, hsec⟩, hcause, hwf⟩

theorem setSecondary_inv {s : State} (h : s.Inv) {u : FpWord} (hu : isNumber s.cfg.fmt u) :
    (s.setSecondary u).Inv := by
  obtain ⟨hcfg, hraw, hsraw, hsval, ⟨hsvalNum, hpri, -⟩, hcause, hwf⟩ := h
  exact ⟨hcfg, hraw, hsraw, hsval, ⟨hsvalNum, hpri, hu⟩, hcause, hwf⟩

theorem setResults_inv {s : State} (h : s.Inv) (r : RawCode) : (s.setResults r).Inv :=
  have hcal := isNumber_cal h.admitted r
  setSecondary_inv (setPrimary_inv (setSigned_inv (setRaw_inv h _) r) hcal) (isNumber_ucv h.admitted hcal)

theorem latch_inv {s : State} (h : s.Inv) {c : Cause} (hc : c ≠ .none) : (s.latch c).Inv := by
  obtain ⟨hcfg, hraw, hsraw, hsval, hnan, -, hwf⟩ := h
  exact ⟨hcfg, hraw, hsraw, hsval, hnan, iff_of_false (by simp) hc, hwf⟩

theorem completed_inv {s : State} (h : s.Inv) (bytes : List Byte) (v : FState) :
    ((s.setFrame (s.frame.writeFrame bytes)).setTransfer v).Inv := by
  obtain ⟨hcfg, hraw, hsraw, hsval, hnan, hcause, hwf⟩ := h
  exact ⟨hcfg, hraw, hsraw, hsval, hnan, hcause, Memory.wf_writeFrame hwf bytes⟩

/-- Where SV is set, SVAL is the conversion of the code in SRAW (R74). -/
theorem sval_eq_svalOf {s : State} (h : s.Inv) (hsv : s.sv = true) :
    s.sval = svalOf s.cfg.fmt (codeOf s.sraw) := by
  obtain ⟨-, -, hsraw, hsval, -, -, -⟩ := h
  rw [hsval hsv, svalOf, sint, ← hsraw]

/-- Every effect of an event keeps the invariant. -/
theorem Effect.inv {e : Event} {s t : State} (heff : Effect e s t) (h : s.Inv) : t.Inv := by
  cases heff with
  | idle | halted | read | started => exact h
  | reset => exact resetBlock_inv h.admitted
  | faulted _ _ _ _ hc => exact latch_inv h (eventFault_ne_none hc).1
  | completed => exact completed_inv h _ _
  | dec => exact setRaw_inv h _
  | sxt => exact setSigned_inv h _
  | cal _ _ _ _ hsv =>
    refine setPrimary_inv h ?_
    rw [sval_eq_svalOf h hsv]
    exact isNumber_cal h.admitted _
  | ucv =>
    have ⟨hcfg, _, _, _, ⟨_, hpri, _⟩, _, _⟩ := h
    exact setSecondary_inv h (isNumber_ucv hcfg hpri)
  | conv => exact setResults_inv h _

theorem takeEvent_inv {s : State} (h : s.Inv) : (takeEvent s).Inv := by
  obtain ⟨host, env, turns, heq⟩ := takeEvent_eq_setInputs s
  rw [heq]
  exact h

/-- Settles O54: a step takes a turn, which changes the inputs only, and performs one effect. -/
theorem stepKeepsInvariant : Obligations.StepKeepsInvariant := by
  unfold Obligations.StepKeepsInvariant
  intro s t h hstep
  obtain ⟨-, heff⟩ := step_effect hstep
  exact heff.inv (takeEvent_inv h)

/-- The invariant holds in every reachable state. -/
theorem Reachable.inv {s : State} (h : Reachable s) : s.Inv := by
  induction h with
  | start c host env turns hc => exact invariantHoldsAtReset.2 c host env turns hc
  | step s t _ hstep ih => exact stepKeepsInvariant s t ih hstep

/-- Settles O56: by the invariant RAW is a zero-extended code and SRAW a sign-extended one. -/
theorem reachableRegisterRanges : Obligations.ReachableRegisterRanges := by
  unfold Obligations.ReachableRegisterRanges
  intro s hs
  obtain ⟨-, hraw, hsraw, -⟩ := hs.inv
  refine ⟨fun j hj => ?_, ?_⟩
  · rw [hraw]
    exact rawWord_upper_bits _ hj
  · rw [hsraw]
    exact sint_range _

end Sys2Proof.Machine
end

section
/-! The order of the agents' steps (spec/20_memory.md R39): what a turn takes off, and that performing an
event takes nothing more. -/

namespace Sys2Proof.Machine

/-! ### What a turn takes off -/

@[simp] theorem takeEvent_ft (s : State) : (takeEvent s).ft = s.ft := by
  obtain ⟨host, env, turns, h⟩ := takeEvent_eq_setInputs s
  rw [h, State.setInputs_ft]

@[simp] theorem takeEvent_fstate (s : State) : (takeEvent s).fstate = s.fstate := by
  obtain ⟨host, env, turns, h⟩ := takeEvent_eq_setInputs s
  rw [h, State.setInputs_fstate]

@[simp] theorem takeEvent_frame (s : State) : (takeEvent s).frame = s.frame := by
  obtain ⟨host, env, turns, h⟩ := takeEvent_eq_setInputs s
  rw [h, State.setInputs_frame]

theorem takeEvent_of_no_turn {s : State} (hs : s.schedule = []) : takeEvent s = s := by
  rw [takeEvent, hs]

theorem takeEvent_of_reset_turn {s : State} {turns : List Agent} (hs : s.schedule = .reset :: turns) :
    takeEvent s = { s with schedule := turns } := by
  rw [takeEvent, hs]
  rfl

theorem takeEvent_of_host_turn {s : State} {turns : List Agent} (hs : s.schedule = .host :: turns) :
    takeEvent s = { s with hostQueue := s.hostQueue.tail, schedule := turns } := by
  rw [takeEvent, hs]
  rfl

theorem takeEvent_of_environment_turn {s : State} {turns : List Agent} (hs : s.schedule = .environment :: turns) :
    takeEvent s = { s with envQueue := s.envQueue.tail, schedule := turns } := by
  rw [takeEvent, hs]
  rfl

/-- A turn uses up the first of the schedule, and takes the oldest step of that turn's agent alone. -/
theorem takeEvent_inputs (s : State) :
    (takeEvent s).schedule = s.schedule.tail ∧
    (takeEvent s).hostQueue = (if s.schedule.head? = some .host then s.hostQueue.tail else s.hostQueue) ∧
    (takeEvent s).envQueue = (if s.schedule.head? = some .environment then s.envQueue.tail else s.envQueue) := by
  match hs : s.schedule with
  | [] => simp [takeEvent_of_no_turn hs, hs]
  | .reset :: turns => simp [takeEvent_of_reset_turn hs]
  | .host :: turns => simp [takeEvent_of_host_turn hs]
  | .environment :: turns => simp [takeEvent_of_environment_turn hs]

/-! ### Each agent's order -/

/-- No effect of an event touches what is left to arrive, reset's among them (R131). -/
theorem Effect.inputs_eq {e : Event} {s t : State} (h : Effect e s t) :
    t.schedule = s.schedule ∧ t.hostQueue = s.hostQueue ∧ t.envQueue = s.envQueue := by
  cases h <;> exact ⟨rfl, rfl, rfl⟩

/-- Settles O6: the turn takes a step off, and performing it leaves what is left to arrive. -/
theorem eachAgentsOrderIsKept : Obligations.EachAgentsOrderIsKept := by
  unfold Obligations.EachAgentsOrderIsKept
  intro s t h
  obtain ⟨-, heff⟩ := step_effect h
  obtain ⟨hschedule, hhost, henv⟩ := heff.inputs_eq
  rw [hschedule, hhost, henv]
  exact takeEvent_inputs s

/-! ### The event of a turn -/

/-- Settles O5: the schedule and the agent's queue determine the event that arrives and what is left. -/
theorem stepPerformsTheTurn : Obligations.StepPerformsTheTurn := by
  unfold Obligations.StepPerformsTheTurn
  intro s turns hcfg
  rw [step_of_admitted hcfg]
  refine ⟨fun hs => ?_, fun hs => ?_, fun index rest hs hq => ?_, fun rest hs hq => ?_,
    fun bytes rest hs hq => ?_, fun hs hq => ?_, fun hs hq => ?_⟩
  · rw [takeEvent_of_no_turn hs, nextEvent, hs, perform]
  · rw [takeEvent_of_reset_turn hs, nextEvent, hs]
  · rw [takeEvent_of_host hs hq, nextEvent, hs, hq]
  · rw [takeEvent_of_environment_turn hs, nextEvent, hs, hq, List.tail_cons]
  · rw [takeEvent_of_environment_turn hs, nextEvent, hs, hq, List.tail_cons]
  · rw [takeEvent_of_host_turn hs, nextEvent, hs, hq, perform, List.tail_nil, ← hq]
  · rw [takeEvent_of_environment_turn hs, nextEvent, hs, hq, perform, List.tail_nil, ← hq]

end Sys2Proof.Machine
end

section
/-! The frame buffer (spec/20_memory.md R30 to R38, R40): what the two transfer events do case by case,
which steps change FRAME at all, and what a DEC reads of it. -/

namespace Sys2Proof.Machine

/-! ### The transfer events -/

/-- A second transfer while one is pending (R33). -/
theorem xferStart_of_inFlight {s : State} (hft : s.ft = false) (hf : s.fstate = .inFlight) :
    xferStart s = s.latch .protocol := by
  rw [xferStart, unlessHalted_of_not_ft hft, hf]
  exact raiseFault_of_not_ft hft _

theorem xferStart_of_not_inFlight {s : State} (hft : s.ft = false) (hf : s.fstate ≠ .inFlight) :
    xferStart s = s.setTransfer .inFlight := by
  rw [xferStart, unlessHalted_of_not_ft hft]
  cases h : s.fstate
  case inFlight => exact absurd h hf
  case empty | loaded => rfl

/-- Settles O35: a latched fault, a pending transfer, and the transfer that starts. -/
theorem xferStartTransitions : Obligations.XferStartTransitions := by
  unfold Obligations.XferStartTransitions
  intro s
  refine congrArg Host.Outcome.next ?_
  split_ifs with hft hf
  · exact unlessHalted_of_ft hft _
  · exact xferStart_of_inFlight (Bool.eq_false_of_not_eq_true hft) hf
  · exact xferStart_of_not_inFlight (Bool.eq_false_of_not_eq_true hft) hf

theorem xferDone_of_ft {s : State} (hft : s.ft = true) (bytes : List Byte) : xferDone bytes s = s :=
  unlessHalted_of_ft hft _

/-- A completion without a start (R34). -/
theorem xferDone_of_not_inFlight {s : State} (hft : s.ft = false) (hf : s.fstate ≠ .inFlight) (bytes : List Byte) :
    xferDone bytes s = s.latch .protocol := by
  rw [xferDone, unlessHalted_of_not_ft hft, raiseFault_of_not_ft hft]
  cases h : s.fstate
  case inFlight => exact absurd h hf
  case empty | loaded => rfl

/-- A frame of the wrong length (R35). -/
theorem xferDone_of_length_ne {s : State} (hft : s.ft = false) (hf : s.fstate = .inFlight) {bytes : List Byte}
    (hb : bytes.length ≠ 8) : xferDone bytes s = s.latch .frameLength := by
  rw [xferDone, unlessHalted_of_not_ft hft, hf]
  exact (if_neg hb).trans (raiseFault_of_not_ft hft _)

/-- The accepted completion (R34). -/
theorem xferDone_of_length_eq {s : State} (hft : s.ft = false) (hf : s.fstate = .inFlight) {bytes : List Byte}
    (hb : bytes.length = 8) :
    xferDone bytes s = (s.setFrame (s.frame.writeFrame bytes)).setTransfer .loaded := by
  rw [xferDone, unlessHalted_of_not_ft hft, hf]
  exact if_pos hb

/-- Every byte of a whole frame is stored at its index. -/
theorem Memory.getElem?_eq_read_writeFrame {m : Memory} (hwf : Memory.wf m = true) {bytes : List Byte}
    (hb : bytes.length = 8) (i : Fin 8) : bytes[i.val]? = some ((m.writeFrame bytes).read i) := by
  have hi : i.val < bytes.length := i.isLt.trans_eq hb.symm
  rw [Memory.read_writeFrame hwf, List.getD_eq_getElem _ _ hi, List.getElem?_eq_getElem hi]

/-- Settles O36: the four cases of the event, and what its stores leave in the canonical form. -/
theorem xferDoneTransitions : Obligations.XferDoneTransitions := by
  unfold Obligations.XferDoneTransitions
  intro s bytes
  refine ⟨fun hft => ?_, fun hft hf => ?_, fun hft hf hb => ?_, fun hft hf hb hwf => ?_⟩
  · rw [perform, xferDone_of_ft hft]
  · rw [perform, xferDone_of_not_inFlight hft hf]
    rfl
  · rw [perform, xferDone_of_length_ne hft hf hb]
    rfl
  · exact ⟨_, congrArg Host.Outcome.next (xferDone_of_length_eq hft hf hb), rfl,
      Memory.wf_writeFrame hwf bytes, Memory.getElem?_eq_read_writeFrame hwf hb⟩

/-! ### Who writes FRAME -/

/-- An effect other than reset's leaves FRAME, or is that of an accepted XFER_DONE (R30). -/
theorem Effect.frame_eq_or_completed {e : Event} {s t : State} (h : Effect e s t) (he : e ≠ .reset) :
    t.frame = s.frame ∨
      s.ft = false ∧ s.fstate = .inFlight ∧ ∃ bytes, e = .xferDone bytes ∧ bytes.length = 8 := by
  cases h with
  | reset => exact absurd rfl he
  | completed _ bytes hft hf hb => exact .inr ⟨hft, hf, bytes, rfl, hb⟩
  | idle | halted | read | faulted | started | dec | sxt | cal | ucv | conv => exact .inl rfl

/-- Settles O38: taking the turn leaves FRAME, and of the effects only the completed transfer's changes it. -/
theorem onlyXferDoneWritesTheFrame : Obligations.OnlyXferDoneWritesTheFrame := by
  unfold Obligations.OnlyXferDoneWritesTheFrame
  intro s t hstep he hne
  obtain ⟨-, heff⟩ := step_effect hstep
  have hframe := heff.frame_eq_or_completed he
  rw [takeEvent_frame, takeEvent_ft, takeEvent_fstate] at hframe
  exact hframe.resolve_left hne

/-! ### What DEC and CONV read -/

/-- DEC and CONV latch the fault of the transfer state, where it has one (R38). -/
theorem needsFrame_of_frameFault {s : State} {c : Cause} (hft : s.ft = false)
    (hc : frameFault s.fstate = some c) (done : State) : needsFrame s done = s.latch c := by
  rw [needsFrame, unlessHalted_of_not_ft hft, raiseFault_of_not_ft hft, raiseFault_of_not_ft hft]
  cases hf : s.fstate <;> rw [hf] at hc <;> cases hc <;> rfl

theorem needsFrame_of_loaded {s : State} (hft : s.ft = false) (hf : s.fstate = .loaded) (done : State) :
    needsFrame s done = done := by
  rw [needsFrame, unlessHalted_of_not_ft hft, hf]

/-- Settles O15: DEC and CONV have one source condition, and it decides the fault. -/
theorem unreadableFrameFaults : Obligations.UnreadableFrameFaults := by
  unfold Obligations.UnreadableFrameFaults
  intro s i hft hi
  have latches : ∀ c, frameFault s.fstate = some c → exec i s = .next (s.latch c) := by
    intro c hc
    rcases hi with rfl | rfl <;> exact congrArg Host.Outcome.next (needsFrame_of_frameFault hft hc _)
  exact ⟨fun hf => latches .frameInFlight (congrArg frameFault hf),
    fun hf => latches .noOperand (congrArg frameFault hf)⟩

/-- A loaded frame and its bytes stay through every effect but XFER_START's and reset's (R138). -/
theorem Effect.loaded_kept {e : Event} {s t : State} (h : Effect e s t) (hl : s.fstate = .loaded)
    (hstart : e ≠ .xferStart) (hreset : e ≠ .reset) : t.fstate = .loaded ∧ t.frame = s.frame := by
  cases h with
  | reset => exact absurd rfl hreset
  | started => exact absurd rfl hstart
  | completed _ _ _ hf => rw [hl] at hf; cases hf
  | idle | halted | read | faulted | dec | sxt | cal | ucv | conv => exact ⟨hl, rfl⟩

/-- So they stay through any steps without an XFER_START and a reset. -/
theorem Steps.loaded_kept {s t : State} {es : List Event} (h : Steps s es t) (hl : s.fstate = .loaded)
    (hstart : .xferStart ∉ es) (hreset : .reset ∉ es) : t.fstate = .loaded ∧ t.frame = s.frame := by
  induction h with
  | none => exact ⟨hl, rfl⟩
  | snoc es t u _ ht ih =>
    rw [List.mem_append, not_or, List.mem_singleton, eq_comm] at hstart hreset
    obtain ⟨hstart, hlastStart⟩ := hstart
    obtain ⟨hreset, hlastReset⟩ := hreset
    obtain ⟨hloaded, hframe⟩ := ih hstart hreset
    obtain ⟨-, heff⟩ := step_effect ht
    have hkept := heff.loaded_kept ((takeEvent_fstate t).trans hloaded) hlastStart hlastReset
    rwa [takeEvent_frame, hframe] at hkept

/-- Bit `k` of a nibble is bit `2 * k + 1` of its byte (R60). -/
theorem nib_getLsbD (b : Byte) {k : Nat} (hk : k < 4) : (nib b).getLsbD k = b.getLsbD (2 * k + 1) := by
  simp only [nib, BitVec.getLsbD_append, BitVec.getLsbD_extractLsb']
  interval_cases k <;> rfl

/-- Nibble `6 - i` of a decoded frame is that of byte `i` (R61). -/
theorem decodeFrame_getLsbD (m : Memory) {i k : Nat} (hi : 1 ≤ i) (hi6 : i ≤ 6) (hk : k < 4) :
    (decodeFrame m).getLsbD ((6 - i) * 4 + k) = (m.read ⟨i, by omega⟩).getLsbD (2 * k + 1) := by
  rw [← nib_getLsbD _ hk]
  simp only [decodeFrame, BitVec.getLsbD_append]
  interval_cases i <;> simp (disch := omega) only [if_pos, if_neg]
  all_goals exact congrArg _ (by omega)

/-- DEC leaves the frame's data bits in RAW, each in its place (R61, R62). -/
theorem rawWord_decodeFrame_getLsbD (m : Memory) {i k : Nat} (hi : 1 ≤ i) (hi6 : i ≤ 6) (hk : k < 4) :
    (rawWord (decodeFrame m)).getLsbD ((6 - i) * 4 + k) = (m.read ⟨i, by omega⟩).getLsbD (2 * k + 1) := by
  rw [← decodeFrame_getLsbD m hi hi6 hk, rawWord, BitVec.getLsbD_setWidth, Bool.and_eq_right_iff_imp]
  exact fun _ => decide_eq_true (by omega)

/-- Settles O37: the completed transfer loads the frame, the steps between keep it, and DEC reads it. -/
theorem decReadsTheDeliveredBytes : Obligations.DecReadsTheDeliveredBytes := by
  unfold Obligations.DecReadsTheDeliveredBytes
  intro s bytes hft hf hb hwf
  refine ⟨_, congrArg Host.Outcome.next (xferDone_of_length_eq hft hf hb), hft, ?_⟩
  intro es u hsteps hstart hreset huft
  obtain ⟨hloaded, hframe⟩ := hsteps.loaded_kept rfl hstart hreset
  refine ⟨_, congrArg Host.Outcome.next (needsFrame_of_loaded huft hloaded _), huft, ?_⟩
  intro i k hi hi6 hk
  have hread := Memory.getElem?_eq_read_writeFrame hwf hb ⟨i, by omega⟩
  rw [State.setRaw_raw, rawWord_decodeFrame_getLsbD _ hi hi6 hk, hframe, hread]
  rfl

end Sys2Proof.Machine
end

section
/-! The encodings (spec/30_encoding.md): the command words (R47 to R49), and the canonical frame of a raw
code (R45, R46), which the Frame Decoder inverts. -/

namespace Sys2Proof.Machine

/-! ### Command words -/

/-- `OP` is the low four bits of the word as a number (R47). -/
theorem toNat_op (w : Byte) : (CommandWord.op w).toNat = w.toNat % 16 := by
  rw [CommandWord.op, BitVec.extractLsb'_toNat, Nat.shiftRight_zero]

/-- `RSV` is what is above them. -/
theorem toNat_rsv (w : Byte) : (CommandWord.rsv w).toNat = w.toNat / 16 := by
  rw [CommandWord.rsv, BitVec.extractLsb'_toNat, Nat.shiftRight_eq_div_pow, Nat.mod_eq_of_lt (by omega)]

theorem rsv_eq_zero_iff (w : Byte) : CommandWord.rsv w = 0#4 ↔ w.toNat < 16 := by
  rw [← BitVec.toNat_inj, toNat_rsv, BitVec.toNat_zero]
  omega

/-- A command word is the number of its operation code: `RSV` is 0 (R47). -/
theorem toNat_encode (i : Instr) : (encode i).toNat = (operationCode i).toNat := by
  cases i <;> rfl

/-- No two codes of the opcode map stand for one command (R48). -/
theorem operationCode_of_operationOf {op : BitVec 4} {i : Instr} (h : operationOf op = .ok i) :
    operationCode i = op := by
  unfold operationOf at h
  split at h <;> cases h
  all_goals exact BitVec.eq_of_toNat_eq (Eq.symm ‹_›)

/-- The assigned codes are 0x1 to 0x5 (R48). -/
theorem exists_operationOf_iff (op : BitVec 4) :
    (∃ i, operationOf op = .ok i) ↔ 1 ≤ op.toNat ∧ op.toNat ≤ 5 := by
  constructor
  · rintro ⟨i, h⟩
    rw [← operationCode_of_operationOf h]
    cases i <;> decide
  · rintro ⟨h1, h5⟩
    unfold operationOf
    interval_cases op.toNat <;> exact ⟨_, rfl⟩

/-- A word decodes where `RSV` is 0, and then as its `OP` (R47, R49). -/
theorem decodeWord_eq_ok_iff {w : Byte} {i : Instr} :
    decodeWord w = .ok i ↔ CommandWord.rsv w = 0#4 ∧ operationOf (CommandWord.op w) = .ok i := by
  unfold decodeWord
  split <;> simp [*]

theorem decodeWord_encode (i : Instr) : decodeWord (encode i) = .ok i := by
  cases i <;> rfl

/-- A command has no other word (R47). -/
theorem encode_of_decodeWord {w : Byte} {i : Instr} (h : decodeWord w = .ok i) : encode i = w := by
  obtain ⟨hrsv, hop⟩ := decodeWord_eq_ok_iff.mp h
  have hw := (rsv_eq_zero_iff w).mp hrsv
  apply BitVec.eq_of_toNat_eq
  rw [toNat_encode, operationCode_of_operationOf hop, toNat_op, Nat.mod_eq_of_lt hw]

/-- Settles O1: the decoder and the encoder are inverse to each other. -/
theorem decodeEncodeRoundTrip : Obligations.DecodeEncodeRoundTrip :=
  ⟨decodeWord_encode, fun _ _ => encode_of_decodeWord⟩

/-- Settles O2: the spec's five words are those of the encoder. -/
theorem specCommandWordsDecode : Obligations.SpecCommandWordsDecode :=
  ⟨decodeWord_encode .dec, decodeWord_encode .sxt, decodeWord_encode .cal, decodeWord_encode .ucv,
    decodeWord_encode .conv⟩

/-! ### Illegal words -/

/-- A legal word, by its two fields (R49). -/
theorem exists_decodeWord_iff (w : Byte) : (∃ i, decodeWord w = .ok i) ↔
    CommandWord.rsv w = 0#4 ∧ 1 ≤ (CommandWord.op w).toNat ∧ (CommandWord.op w).toNat ≤ 5 := by
  simp only [decodeWord_eq_ok_iff, exists_and_left, exists_operationOf_iff]

/-- A legal word, as a number (R48). -/
theorem exists_decodeWord_iff_toNat (w : Byte) : (∃ i, decodeWord w = .ok i) ↔ 1 ≤ w.toNat ∧ w.toNat ≤ 5 := by
  rw [exists_decodeWord_iff, rsv_eq_zero_iff, toNat_op]
  omega

/-- A word that does not decode latches ILLEGAL_COMMAND, unless a fault is latched (R49, R113). -/
theorem runCommand_of_illegal {w : Byte} (h : ¬ ∃ i, decodeWord w = .ok i) (s : State) :
    runCommand w s = .next { s with ft := true, cause := if s.ft then s.cause else .illegalCommand } := by
  rw [← unlessHalted_raiseFault, runCommand]
  cases hw : decodeWord w with
  | ok i => exact absurd ⟨i, hw⟩ h
  | error _ => rfl

/-- Settles O3: a word with a field out of range does not decode, so it latches the fault alone. -/
theorem illegalWordsFault : Obligations.IllegalWordsFault := by
  unfold Obligations.IllegalWordsFault
  refine ⟨fun w s hft hfields => ?_, exists_decodeWord_iff_toNat⟩
  have hillegal : ¬ ∃ i, decodeWord w = .ok i := by
    rw [exists_decodeWord_iff, CommandWord.rsv, CommandWord.op]
    rintro ⟨hrsv, h1, h5⟩
    rcases hfields with h | h | h
    · omega
    · omega
    · exact h hrsv
  rw [perform, runCommand_of_illegal hillegal, hft]
  rfl

/-! ### The canonical frame -/

/-- Bit `k` of a nibble goes to bit `2 * k + 1` of its byte (R46). -/
theorem spread_getLsbD (n : BitVec 4) {k : Nat} (hk : k < 4) : (spread n).getLsbD (2 * k + 1) = n.getLsbD k := by
  simp only [spread, BitVec.getLsbD_append, BitVec.getLsbD_extractLsb']
  interval_cases k <;> rfl

/-- Byte `i` of a canonical frame carries nibble `6 - i` of the code (R46). -/
theorem canonicalFrame_getD (r : RawCode) {i : Nat} (hi : 1 ≤ i) (hi6 : i ≤ 6) (b : Byte) :
    (canonicalFrame r).getD i b = spread (r.extractLsb' ((6 - i) * 4) 4) := by
  interval_cases i <;> rfl

/-- R46: storing the canonical frame of a code and decoding gives the code back. -/
theorem decodeFrame_writeFrame_canonicalFrame {m : Memory} (hwf : Memory.wf m = true) (r : RawCode) :
    decodeFrame (m.writeFrame (canonicalFrame r)) = r := by
  apply BitVec.eq_of_getLsbD_eq
  intro j hj
  obtain ⟨i, k, hi, hi6, hk, rfl⟩ : ∃ i k, 1 ≤ i ∧ i ≤ 6 ∧ k < 4 ∧ j = (6 - i) * 4 + k :=
    ⟨6 - j / 4, j % 4, by omega, by omega, by omega, by omega⟩
  rw [decodeFrame_getLsbD _ hi hi6 hk, Memory.read_writeFrame hwf, canonicalFrame_getD r hi hi6,
    spread_getLsbD _ hk, BitVec.getLsbD_extractLsb', decide_eq_true hk, Bool.true_and]

/-- DEC of a loaded frame (R62). -/
theorem exec_dec_of_loaded {s : State} (hft : s.ft = false) (hf : s.fstate = .loaded) :
    exec .dec s = .next (s.setRaw (rawWord (decodeFrame s.frame))) :=
  congrArg Host.Outcome.next (needsFrame_of_loaded hft hf _)

/-- Settles O14: a canonical frame has the length of a frame, so the transfer completes, and DEC then
inverts the frame encoding. -/
theorem canonicalFrameRoundTrip : Obligations.CanonicalFrameRoundTrip := by
  unfold Obligations.CanonicalFrameRoundTrip
  intro s r hft hf hwf
  have hdone := xferDone_of_length_eq hft hf (bytes := canonicalFrame r) rfl
  refine ⟨_, _, congrArg Host.Outcome.next hdone, exec_dec_of_loaded ?_ rfl, ?_, rfl, ?_⟩
  · exact hft
  · exact congrArg rawWord (decodeFrame_writeFrame_canonicalFrame hwf r)
  · exact hft

end Sys2Proof.Machine
end

section
/-! The Frame Decoder (spec/40_frame_decoder.md): the nibble of a byte (R60), DEC case by case (R62), and
what a raw code depends on (R63). -/

namespace Sys2Proof.Machine

/-- Settles O11: the four bits of a nibble, and R60's own examples. -/
theorem nibbleTakesOddBits : Obligations.NibbleTakesOddBits := by
  unfold Obligations.NibbleTakesOddBits
  exact ⟨fun b => ⟨nib_getLsbD b (by decide), nib_getLsbD b (by decide), nib_getLsbD b (by decide),
    nib_getLsbD b (by decide)⟩, by decide⟩

/-- The upper byte of a raw word is zero: the code has 24 bits (R62). -/
theorem rawWord_getLsbD_of_le (r : RawCode) {j : Nat} (hj : 24 ≤ j) : (rawWord r).getLsbD j = false := by
  rw [rawWord, BitVec.getLsbD_setWidth, BitVec.getLsbD_of_ge r j hj, Bool.and_false]

/-- While a fault is latched, DEC changes nothing (R113). -/
theorem exec_dec_of_ft {s : State} (hft : s.ft = true) : exec .dec s = .next s :=
  congrArg Host.Outcome.next (unlessHalted_of_ft hft _)

/-- Settles O12: a latched fault and the two unreadable transfer states stop DEC, and a loaded frame's code
goes to RAW bit by bit. -/
theorem decGathersTheSampleBits : Obligations.DecGathersTheSampleBits := by
  unfold Obligations.DecGathersTheSampleBits
  refine ⟨decodeWord_encode .dec, fun s => ⟨exec_dec_of_ft, fun hft => ?_, fun hft => ?_, fun hft hf => ?_⟩⟩
  · exact (unreadableFrameFaults s .dec hft (.inl rfl)).1
  · exact (unreadableFrameFaults s .dec hft (.inl rfl)).2
  · exact ⟨_, exec_dec_of_loaded hft hf, rfl, fun _ _ hi hi6 hk => rawWord_decodeFrame_getLsbD _ hi hi6 hk,
      fun _ hj => rawWord_getLsbD_of_le _ hj⟩

/-- The sample bits determine the code: its bit `j` is one of byte `6 - j / 4` (R63). -/
theorem decodeFrame_congr {m m' : Memory} (h : sampleBitsAgree m m') : decodeFrame m = decodeFrame m' := by
  apply BitVec.eq_of_getLsbD_eq
  intro j hj
  obtain ⟨i, k, hi, hi6, hk, rfl⟩ : ∃ i k, 1 ≤ i ∧ i ≤ 6 ∧ k < 4 ∧ j = (6 - i) * 4 + k :=
    ⟨6 - j / 4, j % 4, by omega, by omega, by omega, by omega⟩
  rw [decodeFrame_getLsbD m hi hi6 hk, decodeFrame_getLsbD m' hi hi6 hk]
  exact h ⟨i, by omega⟩ k hi hi6 hk

/-- Settles O13: equal sample bits give equal codes, and the canonical frame of a code decodes to it. -/
theorem decodeDependsOnSampleBitsOnly : Obligations.DecodeDependsOnSampleBitsOnly :=
  ⟨fun _ _ => decodeFrame_congr, fun _ r hwf => decodeFrame_writeFrame_canonicalFrame hwf r⟩

end Sys2Proof.Machine
end

section
/-! The Signed Converter (spec/41_sign_converter.md): the sign extension of a code (R70), its signed value
(R71), the exact conversion (R72), SXT case by case (R73), and what holds of SRAW and SVAL in every reachable
state (R74). -/

namespace Sys2Proof.Machine

/-! ### The signed value of a code -/

/-- Settles O16: the two branches of `sextCode`, which is the sign extension. -/
theorem signExtensionOfTheCode : Obligations.SignExtensionOfTheCode := by
  unfold Obligations.SignExtensionOfTheCode
  exact fun r => ⟨fun h => if_pos h, fun h => if_neg (Bool.eq_false_iff.mp h), sextCode_eq_signExtend r⟩

/-- Sign extension keeps the two's complement value (R71). -/
theorem sint_eq_toInt (r : RawCode) : sint r = r.toInt := by
  rw [sint, sextCode_eq_signExtend, BitVec.toInt_signExtend_of_le (by decide)]

/-- Bit 23 of a code weighs `-2 ^ 23` where the unsigned value counts `2 ^ 23` (R71). -/
theorem sint_eq_toNat_sub (r : RawCode) : sint r = (r.toNat : Int) - 2 ^ 24 * (if r.getLsbD 23 then 1 else 0) := by
  have hmsb : r.msb = r.getLsbD 23 := BitVec.msb_eq_getLsbD_last r
  rw [sint_eq_toInt, BitVec.toInt_eq_msb_cond, hmsb]
  split <;> simp

/-- Settles O17: two's complement is injective, and the code of a number in range is its own pattern. -/
theorem signedValueIsABijection : Obligations.SignedValueIsABijection := by
  unfold Obligations.SignedValueIsABijection
  refine ⟨fun r => ⟨rfl, sint_eq_toNat_sub r⟩, sint_range, fun r r' h => ?_, fun n hlow hhigh => ?_⟩
  · rw [sint_eq_toInt, sint_eq_toInt] at h
    exact BitVec.eq_of_toInt_eq h
  · refine ⟨BitVec.ofInt 24 n, ?_⟩
    rw [sint_eq_toInt]
    exact BitVec.toInt_ofInt_eq_self (by decide) (by omega) (by omega)

/-! ### Exact rounding -/

/-- Nothing is rounded where the division leaves no remainder. -/
theorem roundHalfEven_mul_of_dvd {n d : Nat} (hd : 0 < d) (h : d ∣ n) : roundHalfEven n d * d = n := by
  rw [roundHalfEven, Nat.mod_eq_zero_of_dvd h, if_pos (by omega), Nat.div_mul_cancel h]

/-- A significand that fits the hidden bit and the fraction, or exceeds them by a carry only, makes a whole
number of quanta (R81). -/
theorem quantum_dvd_of_significand_le {f : Format} {s : Nat} (hs : s ≤ 2 ^ (f.fracBits + 1)) (e : Nat) :
    2 ^ quantumExponent f (s * 2 ^ e) 1 ∣ s * 2 ^ e := by
  rw [quantumExponent, Nat.div_one]
  rcases hs.lt_or_eq with hlt | rfl
  · rcases Nat.eq_zero_or_pos s with rfl | hpos
    · simp
    · have hlog : Nat.log2 (s * 2 ^ e) < f.fracBits + 1 + e := by
        rw [Nat.log2_lt (by positivity), pow_add]
        exact Nat.mul_lt_mul_of_pos_right hlt (by positivity)
      exact (pow_dvd_pow 2 (by omega)).mul_left s
  · rw [← pow_add, Nat.log2_two_pow]
    exact pow_dvd_pow 2 (Nat.sub_le _ _)

/-- A whole number of quanta below the overflow threshold is rounded to itself (R81). -/
theorem magnitudeUnits_roundMagnitude_of_dvd {f : Format} {n : Nat} (hdvd : 2 ^ quantumExponent f n 1 ∣ n)
    (hfin : roundMagnitude f n 1 < f.infMagnitude) : magnitudeUnits f (roundMagnitude f n 1) = n := by
  have huncut : roundMagnitude f n 1 = uncutMagnitude f n 1 := by
    rw [roundMagnitude_eq_min] at hfin ⊢
    omega
  have hunits := magnitudeUnits_uncutMagnitude f n Nat.one_pos
  rwa [Nat.mul_one, Nat.one_mul, roundHalfEven_mul_of_dvd (by positivity) hdvd, ← huncut] at hunits

/-- `fl` of a value that is a whole number of quanta stands for that value, where it is finite. -/
theorem fpUnits_fl_of_dvd {f : Format} {a : Bool} {v : Int} (hdvd : 2 ^ quantumExponent f v.natAbs 1 ∣ v.natAbs)
    (hfin : isFinite f (fl f a v 1) = true) : fpUnits f (fl f a v 1) = v := by
  rw [isFinite, fl_magnitude, decide_eq_true_eq] at hfin
  rw [fpUnits, fl_negative, fl_magnitude, magnitudeUnits_roundMagnitude_of_dvd hdvd hfin]
  rcases lt_trichotomy v 0 with hneg | rfl | hpos
  · rw [if_neg hneg.ne, if_pos (decide_eq_true hneg)]
    omega
  · simp
  · rw [if_neg hpos.ne', if_neg (by simpa using hpos.le)]
    omega

/-! ### The conversion of an integer -/

theorem natAbs_mul_two_pow (n : Int) (e : Nat) : (n * 2 ^ e).natAbs = n.natAbs * 2 ^ e := by
  rw [Int.natAbs_mul, Int.natAbs_pow]
  rfl

/-- 24 bits fit the significand of either format (R72). -/
theorem two_pow_24_le_significand (f : Format) : 2 ^ 24 ≤ 2 ^ (f.fracBits + 1) := by
  cases f <;> decide

theorem isFinite_i2f (f : Format) {n : Int} (h : n.natAbs ≤ 2 ^ 24) : isFinite f (i2f f n) = true := by
  have hbound := Nat.mul_le_mul_right (2 ^ f.unitBits) h
  have htop := codeUnits_below_top_quantum f
  refine isFinite_fl Nat.one_pos ?_
  rw [natAbs_mul_two_pow]
  omega

/-- R72: the conversion rounds nothing away. -/
theorem fpUnits_i2f (f : Format) {n : Int} (h : n.natAbs ≤ 2 ^ 24) : fpUnits f (i2f f n) = n * 2 ^ f.unitBits := by
  refine fpUnits_fl_of_dvd ?_ (isFinite_i2f f h)
  rw [natAbs_mul_two_pow]
  exact quantum_dvd_of_significand_le (h.trans (two_pow_24_le_significand f)) _

/-- Zero converts to +0 (R72). -/
theorem i2f_zero (f : Format) : i2f f 0 = 0#64 := by
  simp [i2f, fl, fpPack, roundMagnitude, quantumExponent, roundHalfEven]

/-- Settles O18: such an integer is a whole number of quanta in its binade, below the overflow threshold. -/
theorem smallIntegersConvertExactly : Obligations.SmallIntegersConvertExactly := by
  unfold Obligations.SmallIntegersConvertExactly
  intro f n h
  exact ⟨isFinite_i2f f h, fl_isPattern f _ _ _, fpUnits_i2f f h, fun h0 => h0 ▸ i2f_zero f⟩

/-- The signed value of a code is one of the integers that convert exactly (R71, R72). -/
theorem natAbs_sint_le (r : RawCode) : (sint r).natAbs ≤ 2 ^ 24 := by
  have := sint_range r
  omega

/-! ### SXT -/

/-- A command whose source has been written has its effect (R14). -/
theorem needsValid_of_valid {valid : Bool} {s : State} (hft : s.ft = false) (hv : valid = true) (done : State) :
    needsValid valid s done = done := by
  rw [needsValid, unlessHalted_of_not_ft hft, if_pos hv]

/-- Settles O19: a latched fault and an unwritten RAW stop SXT, and otherwise it writes the code's sign
extension and its exact conversion. -/
theorem sxtConvertsExactly : Obligations.SxtConvertsExactly := by
  unfold Obligations.SxtConvertsExactly
  refine ⟨decodeWord_encode .sxt, fun s => ⟨fun hft => ?_, fun hft hrv => ?_, fun hft hrv => ?_⟩⟩
  · exact congrArg Host.Outcome.next (unlessHalted_of_ft hft _)
  · exact congrArg Host.Outcome.next (needsValid_of_invalid hft hrv _)
  · have hsint : sint (codeOf s.raw) = (s.raw.extractLsb' 0 24).toInt := sint_eq_toInt _
    refine ⟨_, congrArg Host.Outcome.next (needsValid_of_valid hft hrv _), rfl, ?_, ?_, ?_, ?_⟩
    · exact sextCode_eq_signExtend _
    · exact congrArg (i2f s.cfg.fmt) hsint
    · exact svalOf_finite s.cfg.fmt _
    · rw [← hsint]
      exact fpUnits_i2f s.cfg.fmt (natAbs_sint_le _)

/-! ### Reachable states -/

/-- Settles O55: the invariant of the reachable states relates SVAL to SRAW and makes SRAW a sign-extended
code. -/
theorem reachableRegisterRelations : Obligations.ReachableRegisterRelations := by
  unfold Obligations.ReachableRegisterRelations
  intro s hs hsv
  obtain ⟨-, -, hsraw, hsval, -⟩ := hs.inv
  exact ⟨hsval hsv, hsraw.trans (sextCode_eq_signExtend _)⟩

end Sys2Proof.Machine
end

section
/-! IEEE rounding and the operations (spec/42_calibration.md R81 to R83): a rounded value is a nearest one,
a value of the format is exact, each operation rounds once, and the signs of zeros. -/

namespace Sys2Proof.Machine

/-! ### Rounding to nearest, ties to even -/

/-- A value is a whole number of the quanta `e` binades up, or lies below the foot of that binade. -/
theorem magnitudeUnits_quanta_or_below (f : Format) (e q : Nat) :
    (∃ k, magnitudeUnits f q = k * 2 ^ e) ∨ (e ≠ 0 ∧ magnitudeUnits f q < 2 ^ f.fracBits * 2 ^ e) := by
  obtain ⟨e', s, rfl, hs, hgrid⟩ := grid_of_pattern f q
  rw [magnitudeUnits_grid f hs.le hgrid]
  rcases Nat.lt_or_ge e' e with hlt | hle
  · refine .inr ⟨Nat.ne_zero_of_lt hlt, ?_⟩
    calc s * 2 ^ e' < 2 * 2 ^ f.fracBits * 2 ^ e' := Nat.mul_lt_mul_of_pos_right hs (by positivity)
      _ = 2 ^ f.fracBits * 2 ^ (e' + 1) := by ring
      _ ≤ 2 ^ f.fracBits * 2 ^ e := Nat.mul_le_mul_left _ (Nat.pow_le_pow_right Nat.two_pos hlt)
  · exact .inl ⟨s * 2 ^ (e' - e), by rw [Nat.mul_assoc, ← pow_add, Nat.sub_add_cancel hle]⟩

/-- A pattern is even when its number of quanta is. -/
theorem uncutMagnitude_mod_two (f : Format) (n d : Nat) :
    uncutMagnitude f n d % 2 = roundHalfEven n (d * 2 ^ quantumExponent f n d) % 2 := by
  rw [uncutMagnitude, Nat.add_mod, Nat.mul_mod, pow_frac_even]
  simp

/-- No pattern is nearer to `n / d` than the uncut magnitude, and at equal distance that one is even. A
pattern of the same binade or above is a whole number of its quanta; one below the binade is farther away
than the binade's foot. -/
theorem uncutMagnitude_nearest (f : Format) (n : Nat) {d : Nat} (hd : 0 < d) (q : Nat) :
    ((magnitudeUnits f (uncutMagnitude f n d) * d : Int) - n).natAbs ≤ ((magnitudeUnits f q * d : Int) - n).natAbs ∧
    (((magnitudeUnits f (uncutMagnitude f n d) * d : Int) - n).natAbs = ((magnitudeUnits f q * d : Int) - n).natAbs →
      q ≠ uncutMagnitude f n d → uncutMagnitude f n d % 2 = 0) := by
  have hD : 0 < d * 2 ^ quantumExponent f n d := by positivity
  have hunits := magnitudeUnits_uncutMagnitude f n hd
  obtain ⟨-, hgrid⟩ := rounding_grid f n hd
  rcases magnitudeUnits_quanta_or_below f (quantumExponent f n d) q with ⟨k, hk⟩ | ⟨he, hbelow⟩
  · have hq : magnitudeUnits f q * d = k * (d * 2 ^ quantumExponent f n d) := by rw [hk]; ring
    obtain ⟨hnear, htie⟩ := roundHalfEven_nearest n hD k
    simp only [← Nat.cast_mul, hunits, hq] at hnear htie ⊢
    refine ⟨hnear, fun heq hne => (uncutMagnitude_mod_two f n d).trans (htie heq fun hsame => hne ?_)⟩
    apply (magnitudeUnits_strictMono f).injective
    exact Nat.eq_of_mul_eq_mul_right hd (by rw [hq, hunits, hsame])
  · obtain ⟨hnear, -⟩ := roundHalfEven_nearest n hD (2 ^ f.fracBits)
    have hfoot : 2 ^ f.fracBits * (d * 2 ^ quantumExponent f n d) ≤ n := by
      rw [Nat.mul_comm d, ← Nat.mul_assoc]
      exact (hgrid.resolve_left he).2
    have hq : magnitudeUnits f q * d < 2 ^ f.fracBits * (d * 2 ^ quantumExponent f n d) := by
      rw [Nat.mul_comm d, ← Nat.mul_assoc]
      exact Nat.mul_lt_mul_of_pos_right hbelow hd
    simp only [← Nat.cast_mul, hunits] at hnear ⊢
    have hfarther := lt_of_le_of_lt hnear (show _ < ((magnitudeUnits f q * d : Nat) - n : Int).natAbs by omega)
    exact ⟨hfarther.le, fun heq => absurd heq hfarther.ne⟩

/-- A finite rounded magnitude was not cut. -/
theorem roundMagnitude_eq_uncutMagnitude {f : Format} {n d : Nat} (h : roundMagnitude f n d < f.infMagnitude) :
    roundMagnitude f n d = uncutMagnitude f n d := by
  rw [roundMagnitude_eq_min] at h ⊢
  omega

/-- The largest finite magnitude is odd: its fraction is all ones. -/
theorem largestFinite_odd (f : Format) : (f.infMagnitude - 1) % 2 = 1 := by
  cases f <;> decide +kernel

/-- Rounding stays finite only below the overflow threshold: from it on, infinity's pattern is as near as
the largest finite one, which is odd. -/
theorem lt_threshold_of_roundMagnitude_lt_inf {f : Format} {n d : Nat} (hd : 0 < d)
    (h : roundMagnitude f n d < f.infMagnitude) :
    2 * n < (magnitudeUnits f (f.infMagnitude - 1) + magnitudeUnits f f.infMagnitude) * d := by
  have hodd := largestFinite_odd f
  rw [roundMagnitude_eq_uncutMagnitude h] at h
  obtain ⟨hnear, htie⟩ := uncutMagnitude_nearest f n hd f.infMagnitude
  have hle : magnitudeUnits f (uncutMagnitude f n d) * d ≤ magnitudeUnits f (f.infMagnitude - 1) * d :=
    Nat.mul_le_mul_right d ((magnitudeUnits_strictMono f).monotone (Nat.le_sub_one_of_lt h))
  have htop : magnitudeUnits f (f.infMagnitude - 1) * d < magnitudeUnits f f.infMagnitude * d :=
    Nat.mul_lt_mul_of_pos_right (magnitudeUnits_strictMono f (by omega)) hd
  by_contra hover
  rw [Nat.add_mul] at hover
  simp only [← Nat.cast_mul] at hnear htie
  have heven := htie (by omega) h.ne'
  have hbelow : uncutMagnitude f n d < f.infMagnitude - 1 := by omega
  have := Nat.mul_lt_mul_of_pos_right (magnitudeUnits_strictMono f hbelow) hd
  omega

/-- The overflow threshold of log entry 11. -/
theorem roundMagnitude_eq_inf_iff (f : Format) (n : Nat) {d : Nat} (hd : 0 < d) :
    roundMagnitude f n d = f.infMagnitude ↔
      (magnitudeUnits f (f.infMagnitude - 1) + magnitudeUnits f f.infMagnitude) * d ≤ 2 * n := by
  have hlt : roundMagnitude f n d < f.infMagnitude ↔
      2 * n < (magnitudeUnits f (f.infMagnitude - 1) + magnitudeUnits f f.infMagnitude) * d :=
    ⟨lt_threshold_of_roundMagnitude_lt_inf hd, roundMagnitude_lt_inf hd⟩
  have hle := roundMagnitude_le f n d
  omega

/-- Settles O20: `fl` packs a sign and a rounded magnitude, which is a nearest pattern unless it is cut at
infinity. -/
theorem roundsToNearestTiesToEven : Obligations.RoundsToNearestTiesToEven := by
  unfold Obligations.RoundsToNearestTiesToEven
  refine fun f d hd => ⟨fun a v => ⟨fl_magnitude f a v d, fun h0 => ?_, fun h0 => ?_, fl_isPattern f a v d⟩,
    fun n => ⟨roundMagnitude_eq_inf_iff f n hd, roundMagnitude_le f n d, fun h q _ => ?_⟩⟩
  · rw [fl_negative, if_pos h0]
  · rw [fl_negative, if_neg h0, decide_eq_true_eq]
  · rw [roundMagnitude_eq_uncutMagnitude h]
    exact uncutMagnitude_nearest f n hd q

/-- Settles O21: a value of the format is at distance 0 from itself, so the nearest pattern stands for it,
and no other pattern does. -/
theorem representableValuesAreExact : Obligations.RepresentableValuesAreExact := by
  unfold Obligations.RepresentableValuesAreExact
  intro f p d hp hd
  obtain ⟨hnear, -⟩ := uncutMagnitude_nearest f (magnitudeUnits f p * d) hd p
  simp only [← Nat.cast_mul] at hnear
  have hunits : magnitudeUnits f (uncutMagnitude f (magnitudeUnits f p * d) d) = magnitudeUnits f p :=
    Nat.eq_of_mul_eq_mul_right hd (by omega)
  rw [roundMagnitude_eq_min, (magnitudeUnits_strictMono f).injective hunits]
  exact Nat.min_eq_right hp.le

/-! ### Rounding zeros and values of the format -/

/-- An exact zero is rounded to the zero of the sign given (R83). -/
theorem fl_zero (f : Format) (a : Bool) (d : Nat) : fl f a 0 d = fpZero f a := by
  simp [fl, fpZero, roundMagnitude, quantumExponent, roundHalfEven]

/-- A positive factor keeps the sign of a value other than 0. -/
theorem units_mul_lt_zero {f : Format} {w : FpWord} (h0 : fpUnits f w ≠ 0) {k : Int} (hk : 0 < k) :
    decide (fpUnits f w * k < 0) = fpNegative f w := by
  rw [← units_lt_zero f w h0]
  exact decide_eq_decide.mpr ⟨fun h => neg_of_mul_neg_left h hk.le, fun h => mul_neg_of_neg_of_pos h hk⟩

/-- A value of the format other than 0 is rounded to its own pattern (R81). -/
theorem fl_units {f : Format} {w : FpWord} (hpat : isPattern f w = true) (hfin : isFinite f w = true)
    (h0 : fpUnits f w ≠ 0) (a : Bool) {d : Nat} (hd : 0 < d) : fl f a (fpUnits f w * d) d = w := by
  have hdpos : (0 : Int) < d := Int.natCast_pos.mpr hd
  have hmag : roundMagnitude f (fpUnits f w * d).natAbs d = fpMagnitude f w := by
    rw [Int.natAbs_mul, natAbs_units, Int.natAbs_natCast]
    exact representableValuesAreExact f _ d (of_decide_eq_true hfin) hd
  rw [fl, hmag, if_neg (mul_ne_zero h0 hdpos.ne'), units_mul_lt_zero h0 hdpos, pack_self f hpat]

theorem zero_lt_signWeight (f : Format) : 0 < f.signWeight :=
  Nat.lt_of_le_of_lt (Nat.zero_le _) (infMagnitude_lt_signWeight f)

theorem fpMagnitude_fpZero (f : Format) (a : Bool) : fpMagnitude f (fpZero f a) = 0 :=
  fpMagnitude_pack f a (zero_lt_signWeight f)

theorem fpNegative_fpZero (f : Format) (a : Bool) : fpNegative f (fpZero f a) = a :=
  fpNegative_pack f a (zero_lt_signWeight f)

theorem fpNegative_fpInfinity (f : Format) (a : Bool) : fpNegative f (fpInfinity f a) = a :=
  fpNegative_pack f a (infMagnitude_lt_signWeight f)

theorem isFinite_fpZero (f : Format) (a : Bool) : isFinite f (fpZero f a) = true := by
  rw [isFinite, fpMagnitude_fpZero]
  cases f <;> decide

/-- A value is 0 where its magnitude is. -/
theorem fpUnits_eq_zero_iff {f : Format} {w : FpWord} : fpUnits f w = 0 ↔ fpMagnitude f w = 0 := by
  have hzero : magnitudeUnits f 0 = 0 := by simp [magnitudeUnits]
  rw [← Int.natAbs_eq_zero, natAbs_units]
  exact (magnitudeUnits_strictMono f).injective.eq_iff' hzero

theorem fpUnits_fpZero (f : Format) (a : Bool) : fpUnits f (fpZero f a) = 0 :=
  fpUnits_eq_zero_iff.mpr (fpMagnitude_fpZero f a)

/-- A pattern whose value is 0 is one of the two zeros. -/
theorem eq_fpZero_of_units_eq_zero {f : Format} {w : FpWord} (hpat : isPattern f w = true)
    (h0 : fpUnits f w = 0) : w = fpZero f (fpNegative f w) := by
  rw [fpZero, ← fpUnits_eq_zero_iff.mp h0, pack_self f hpat]

/-- A value other than 0 has its sign: of two equal ones both are negative or neither is. -/
theorem fpNegative_congr {f : Format} {x y : FpWord} (h : fpUnits f x = fpUnits f y) (h0 : fpUnits f y ≠ 0) :
    fpNegative f x = fpNegative f y := by
  rw [← units_lt_zero f x (h ▸ h0), ← units_lt_zero f y h0, h]

/-! ### The operations -/

theorem fpMul_of_finite {f : Format} {x y : FpWord} (hx : isFinite f x = true) (hy : isFinite f y = true) :
    fpMul f x y =
      fl f (fpNegative f x ^^ fpNegative f y) (fpUnits f x * fpUnits f y) (2 ^ f.unitBits) := by
  rw [fpMul, classify_of_finite hx, classify_of_finite hy]

theorem fpDiv_of_finite {f : Format} {x y : FpWord} (hx : isFinite f x = true) (hy : isFinite f y = true)
    (h0 : fpUnits f y ≠ 0) :
    fpDiv f x y = fl f (fpNegative f x ^^ fpNegative f y)
      (fpUnits f x * (fpUnits f y).sign * 2 ^ f.unitBits) (fpUnits f y).natAbs := by
  rw [fpDiv, classify_of_finite hx, classify_of_finite hy]
  exact if_neg h0

theorem fpFma_of_finite {f : Format} {x y z : FpWord} (hx : isFinite f x = true) (hy : isFinite f y = true)
    (hz : isFinite f z = true) :
    fpFma f x y z = fl f ((fpNegative f x ^^ fpNegative f y) && fpNegative f z)
      (fpUnits f x * fpUnits f y + fpUnits f z * 2 ^ f.unitBits) (2 ^ f.unitBits) := by
  rw [fpFma, classify_of_finite hx, classify_of_finite hy, classify_of_finite hz]

theorem fpAdd_infinity_left {f : Format} {y : FpWord} (hy : isFinite f y = true) (a : Bool) :
    fpAdd f (fpInfinity f a) y = fpInfinity f a := by
  rw [fpAdd, classify_infinity, classify_of_finite hy]

theorem fpAdd_infinity_right {f : Format} {x : FpWord} (hx : isFinite f x = true) (a : Bool) :
    fpAdd f x (fpInfinity f a) = fpInfinity f a := by
  rw [fpAdd, classify_of_finite hx, classify_infinity]

theorem fpMul_of_infinite_left {f : Format} {x y : FpWord} {a : Bool} (hx : classify f x = .infinite a)
    (hy : isFinite f y = true) (h0 : fpUnits f y ≠ 0) : fpMul f x y = fpInfinity f (a ^^ fpNegative f y) := by
  rw [fpMul, hx, classify_of_finite hy]
  exact if_neg h0

theorem fpMul_infinity_right {f : Format} {x : FpWord} (hx : isFinite f x = true) (h0 : fpUnits f x ≠ 0) (a : Bool) :
    fpMul f x (fpInfinity f a) = fpInfinity f (fpNegative f x ^^ a) := by
  rw [fpMul, classify_of_finite hx, classify_infinity]
  exact if_neg h0

theorem fpDiv_infinity_left {f : Format} {y : FpWord} (hy : isFinite f y = true) (a : Bool) :
    fpDiv f (fpInfinity f a) y = fpInfinity f (a ^^ fpNegative f y) := by
  rw [fpDiv, classify_infinity, classify_of_finite hy]

theorem fpDiv_infinity_right {f : Format} {x : FpWord} (hx : isFinite f x = true) (a : Bool) :
    fpDiv f x (fpInfinity f a) = fpZero f (fpNegative f x ^^ a) := by
  rw [fpDiv, classify_of_finite hx, classify_infinity]

/-- Settles O22: each operation on the classes of its operands. -/
theorem operationsRoundTheExactResult : Obligations.OperationsRoundTheExactResult := by
  unfold Obligations.OperationsRoundTheExactResult
  refine fun f x y z hx hy hz => ⟨fpAdd_of_finite hx hy, fpSub_of_finite hx hy, fpMul_of_finite hx hy,
    fun hpos => ?_, fun hneg => ?_, fpFma_of_finite hx hy hz, fun a => ⟨?_, ?_, ?_, ?_, ?_, ?_⟩⟩
  · rw [fpDiv_of_finite hx hy hpos.ne', Int.sign_eq_one_of_pos hpos, mul_one]
  · rw [fpDiv_of_finite hx hy hneg.ne, Int.sign_eq_neg_one_of_neg hneg, mul_neg_one]
  · exact fpAdd_infinity_left hy a
  · exact fpAdd_infinity_right hx a
  · exact fpMul_of_infinite_left (classify_infinity f a) hy
  · exact fun h0 => fpMul_infinity_right hx h0 a
  · exact fpDiv_infinity_right hx a
  · exact fun _ => fpDiv_infinity_left hy a

/-! ### Signed zeros -/

/-- The difference of equal values is a zero, -0 only as (-0) - (+0) (R83). -/
theorem fpSub_of_units_eq {f : Format} {x y : FpWord} (hx : isFinite f x = true) (hy : isFinite f y = true)
    (h : fpUnits f x = fpUnits f y) : fpSub f x y = fpZero f (fpNegative f x && !fpNegative f y) := by
  rw [fpSub_of_finite hx hy, sub_eq_zero.mpr h, fl_zero]

/-- A product with a factor 0 is a zero with the product's sign (R83). -/
theorem fpMul_of_units_mul_eq_zero {f : Format} {x y : FpWord} (hx : isFinite f x = true) (hy : isFinite f y = true)
    (h : fpUnits f x * fpUnits f y = 0) : fpMul f x y = fpZero f (fpNegative f x ^^ fpNegative f y) := by
  rw [fpMul_of_finite hx hy, h, fl_zero]

/-- The sum of two zeros is +0 unless both are -0 (R83). -/
theorem fpAdd_zeros (f : Format) (a b : Bool) : fpAdd f (fpZero f a) (fpZero f b) = fpZero f (a && b) := by
  rw [fpAdd_of_finite (isFinite_fpZero f a) (isFinite_fpZero f b), fpUnits_fpZero, fpUnits_fpZero, add_zero,
    fl_zero, fpNegative_fpZero, fpNegative_fpZero]

/-- Settles O23: each exact result is 0, and the operation gives its sign. -/
theorem signedZerosFollowIeee : Obligations.SignedZerosFollowIeee := by
  unfold Obligations.SignedZerosFollowIeee
  intro f x hx
  have hz := isFinite_fpZero f false
  refine ⟨?_, ?_, ?_, fpAdd_zeros f false true, fpAdd_zeros f true true⟩
  · rw [fpSub_of_units_eq hx hx rfl, Bool.and_not_self]
  · rw [fpMul_of_units_mul_eq_zero hz hx (by rw [fpUnits_fpZero, zero_mul]), fpNegative_fpZero, Bool.false_xor]
  · rw [fpMul_of_units_mul_eq_zero hx hz (by rw [fpUnits_fpZero, mul_zero]), fpNegative_fpZero, Bool.xor_false]

end Sys2Proof.Machine
end

section
/-! The Calibration Mapper and the Unit Converter (spec/42_calibration.md): CAL and UCV case by case (R85, R88),
the first calibration point (R86), equal pressures (R85), NaNs (R82), and the unit factor (R87). -/

namespace Sys2Proof.Machine

/-! ### CAL and UCV -/

/-- Settles O24: a latched fault and an unwritten SVAL stop CAL, and otherwise it writes the line's value. -/
theorem calAppliesTheLine : Obligations.CalAppliesTheLine := by
  unfold Obligations.CalAppliesTheLine
  refine ⟨decodeWord_encode .cal, fun s => ⟨fun hft => ?_, fun hft hsv => ?_, fun hft hsv => ?_, rfl⟩⟩
  · exact congrArg Host.Outcome.next (unlessHalted_of_ft hft _)
  · exact congrArg Host.Outcome.next (needsValid_of_invalid hft hsv _)
  · exact congrArg Host.Outcome.next (needsValid_of_valid hft hsv _)

/-- Settles O29: a latched fault and an unwritten PRI stop UCV, and otherwise it writes the product. -/
theorem ucvMultipliesByTheFactor : Obligations.UcvMultipliesByTheFactor := by
  unfold Obligations.UcvMultipliesByTheFactor
  refine ⟨decodeWord_encode .ucv, fun s => ⟨fun hft => ?_, fun hft hpv => ?_, fun hft hpv => ?_⟩⟩
  · exact congrArg Host.Outcome.next (unlessHalted_of_ft hft _)
  · exact congrArg Host.Outcome.next (needsValid_of_invalid hft hpv _)
  · exact congrArg Host.Outcome.next (needsValid_of_valid hft hpv _)

/-! ### Admitted calibration points -/

/-- SLOPE is finite (R12(3)), and the calibration points are finite patterns (R12(1)). -/
theorem admitted_finite {c : Config} (h : c.admitted = true) :
    isFinite c.fmt (slope c) = true ∧
    ∀ w ∈ [c.raw1, c.p1, c.raw2, c.p2], isPattern c.fmt w = true ∧ isFinite c.fmt w = true := by
  obtain ⟨hpoints, -, hslope, -, -⟩ := admitted_iff.mp h
  exact ⟨hslope, fun w hw => (hpoints w hw).imp_left decide_eq_true⟩

/-- Where slope times distance is exactly 0, the line gives P_1, fused or not, and for a zero P_1 the sign
of adding it to that product (R83, R84). -/
theorem cal_of_zero_product {c : Config} {x : FpWord} (h : c.admitted = true)
    (hoffset : isFinite c.fmt (offsetFromFirst c x) = true)
    (h0 : fpUnits c.fmt (slope c) * fpUnits c.fmt (offsetFromFirst c x) = 0) :
    (fpUnits c.fmt c.p1 ≠ 0 → cal c x = c.p1) ∧
    (fpUnits c.fmt c.p1 = 0 → cal c x = fpZero c.fmt
      ((fpNegative c.fmt (slope c) ^^ fpNegative c.fmt (offsetFromFirst c x)) && fpNegative c.fmt c.p1)) := by
  obtain ⟨hslope, hpoints⟩ := admitted_finite h
  obtain ⟨hpat, hp1⟩ := hpoints c.p1 (by simp)
  obtain ⟨d, hd, hcal⟩ : ∃ d : Nat, 0 < d ∧ cal c x = fl c.fmt
      ((fpNegative c.fmt (slope c) ^^ fpNegative c.fmt (offsetFromFirst c x)) && fpNegative c.fmt c.p1)
      (fpUnits c.fmt c.p1 * d) d := by
    cases hfused : c.calFused
    · refine ⟨1, Nat.one_pos, ?_⟩
      rw [cal, hfused, if_neg Bool.false_ne_true, fpMul_of_units_mul_eq_zero hslope hoffset h0,
        fpAdd_of_finite (isFinite_fpZero c.fmt _) hp1, fpNegative_fpZero, fpUnits_fpZero, zero_add, Nat.cast_one,
        mul_one]
    · refine ⟨2 ^ c.fmt.unitBits, Nat.two_pow_pos _, ?_⟩
      rw [cal, hfused, if_pos rfl, fpFma_of_finite hslope hoffset hp1, h0, zero_add, Nat.cast_pow, Nat.cast_ofNat]
  rw [hcal]
  exact ⟨fun hne => fl_units hpat hp1 hne _ hd, fun hz => by rw [hz, zero_mul, fl_zero]⟩

/-! ### The first calibration point -/

/-- The distance of RAW_1 from itself is +0: only (-0) - (+0) is -0, and the input is not -0. -/
theorem offsetFromFirst_of_units_eq {c : Config} (h : c.admitted = true) {x : FpWord}
    (hpat : isPattern c.fmt x = true) (hx : isFinite c.fmt x = true) (hne : x ≠ fpZero c.fmt true)
    (heq : fpUnits c.fmt x = fpUnits c.fmt c.raw1) : offsetFromFirst c x = fpZero c.fmt false := by
  obtain ⟨-, hpoints⟩ := admitted_finite h
  obtain ⟨-, hraw1⟩ := hpoints c.raw1 (by simp)
  rw [offsetFromFirst, fpSub_of_units_eq hx hraw1 heq]
  congr 1
  by_cases h0 : fpUnits c.fmt c.raw1 = 0
  · have hxzero := eq_fpZero_of_units_eq_zero hpat (heq.trans h0)
    cases hneg : fpNegative c.fmt x
    · rfl
    · rw [hneg] at hxzero
      exact absurd hxzero hne
  · rw [fpNegative_congr heq h0, Bool.and_not_self]

/-- Settles O25: the distance is +0, so its product with SLOPE is a zero of SLOPE's sign. -/
theorem firstCalibrationPointIsExact : Obligations.FirstCalibrationPointIsExact := by
  unfold Obligations.FirstCalibrationPointIsExact
  intro c x h hpat hx hne heq
  have hoffset := offsetFromFirst_of_units_eq h hpat hx hne heq
  obtain ⟨hnonzero, hzero⟩ := cal_of_zero_product (x := x) h (hoffset ▸ isFinite_fpZero c.fmt false)
    (by rw [hoffset, fpUnits_fpZero, mul_zero])
  refine ⟨hnonzero, fun h0 => ?_⟩
  rw [hzero h0, hoffset, fpNegative_fpZero, Bool.xor_false, Bool.and_comm]

/-! ### Equal pressures -/

/-- A zero over what is neither a NaN nor 0 is a zero with the quotient's sign. -/
theorem fpDiv_fpZero_of_ne_zero {f : Format} {y : FpWord} (hy : isNaN f y = false) (h0 : fpMagnitude f y ≠ 0)
    (a : Bool) : fpDiv f (fpZero f a) y = fpZero f (a ^^ fpNegative f y) := by
  rw [fpDiv, classify_of_finite (isFinite_fpZero f a), fpNegative_fpZero, fpUnits_fpZero]
  rcases classify_of_not_nan hy with hclass | hclass <;> rw [hclass]
  have hunits : fpUnits f y ≠ 0 := fun hz => h0 (fpUnits_eq_zero_iff.mp hz)
  simp only [if_neg hunits, zero_mul, fl_zero]

/-- The difference of different values has the sign of the exact one. -/
theorem fpNegative_fpSub_of_units_ne {f : Format} {x y : FpWord} (hx : isFinite f x = true)
    (hy : isFinite f y = true) (hne : fpUnits f x ≠ fpUnits f y) :
    fpNegative f (fpSub f x y) = decide (fpUnits f x < fpUnits f y) := by
  rw [fpSub_of_finite hx hy, fl_negative, if_neg (sub_ne_zero.mpr hne)]
  exact decide_eq_decide.mpr sub_neg

/-- SLOPE with equal pressures: `P_2 - P_1` is a zero, -0 only as (-0) - (+0), over a value other than 0 (R11). -/
theorem slope_of_equal_pressures {c : Config} (h : c.admitted = true)
    (heq : fpUnits c.fmt c.p1 = fpUnits c.fmt c.p2) :
    slope c = fpZero c.fmt ((fpNegative c.fmt c.p2 && !fpNegative c.fmt c.p1) ^^
      decide (fpUnits c.fmt c.raw2 < fpUnits c.fmt c.raw1)) := by
  obtain ⟨-, hdiffer, -⟩ := admitted_iff.mp h
  obtain ⟨-, hpoints⟩ := admitted_finite h
  obtain ⟨-, hraw1⟩ := hpoints c.raw1 (by simp)
  obtain ⟨-, hp1⟩ := hpoints c.p1 (by simp)
  obtain ⟨-, hraw2⟩ := hpoints c.raw2 (by simp)
  obtain ⟨-, hp2⟩ := hpoints c.p2 (by simp)
  have hnumber : isNumber c.fmt (fpSub c.fmt c.raw2 c.raw1) := by
    rw [fpSub_of_finite hraw2 hraw1]
    exact isNumber_fl _ _ _ _
  rw [slope, fpSub_of_units_eq hp2 hp1 heq.symm,
    fpDiv_fpZero_of_ne_zero hnumber.2 (fpSub_magnitude_ne_zero hraw2 hraw1 hdiffer.symm),
    fpNegative_fpSub_of_units_ne hraw2 hraw1 hdiffer.symm]

/-- Of equal values only +0 and -0 differ in their signs. -/
theorem negative_and_not_negative_iff {f : Format} {x y : FpWord} (hx : isPattern f x = true)
    (hy : isPattern f y = true) (heq : fpUnits f x = fpUnits f y) :
    (fpNegative f y && !fpNegative f x) = true ↔ x = fpZero f false ∧ y = fpZero f true := by
  constructor
  · intro hsigns
    obtain ⟨hyneg, hxpos⟩ : fpNegative f y = true ∧ fpNegative f x = false := by simpa using hsigns
    have h0 : fpUnits f y = 0 := by
      by_contra hne
      rw [fpNegative_congr heq hne, hyneg] at hxpos
      cases hxpos
    rw [← hxpos, ← hyneg]
    exact ⟨eq_fpZero_of_units_eq_zero hx (heq.trans h0), eq_fpZero_of_units_eq_zero hy h0⟩
  · rintro ⟨rfl, rfl⟩
    simp only [fpNegative_fpZero, Bool.not_false, Bool.and_self]

/-- Settles O26: SLOPE is a zero, so its product with any distance is one, and the line gives P_1. -/
theorem equalPressuresGiveThatPressure : Obligations.EqualPressuresGiveThatPressure := by
  unfold Obligations.EqualPressuresGiveThatPressure
  intro c r h heq
  obtain ⟨-, hdiffer, -⟩ := admitted_iff.mp h
  obtain ⟨-, hpoints⟩ := admitted_finite h
  obtain ⟨-, hraw1⟩ := hpoints c.raw1 (by simp)
  obtain ⟨hpat1, hp1⟩ := hpoints c.p1 (by simp)
  obtain ⟨hpat2, -⟩ := hpoints c.p2 (by simp)
  have hslope := slope_of_equal_pressures h heq
  have hsigns := negative_and_not_negative_iff hpat1 hpat2 heq
  have hslope0 : fpUnits c.fmt (slope c) = 0 := by rw [hslope, fpUnits_fpZero]
  obtain ⟨hnonzero, hzero⟩ := cal_of_zero_product h (offsetFromFirst_finite hraw1 r) (by rw [hslope0, zero_mul])
  refine ⟨hslope0, fun hne => ?_, fun hpos hneg => ?_, ?_⟩
  · rw [hslope, Bool.eq_false_iff.mpr (mt hsigns.mp hne), Bool.false_xor]
  · rw [hslope, hsigns.mpr ⟨hpos, hneg⟩, Bool.true_xor, ← decide_not]
    congr 2
    exact propext (not_lt.trans hdiffer.le_iff_lt)
  · by_cases h0 : fpUnits c.fmt c.p1 = 0
    · rw [hzero h0, fpUnits_fpZero, h0]
      exact ⟨isFinite_fpZero c.fmt _, rfl⟩
    · rw [hnonzero h0]
      exact ⟨hp1, rfl⟩

/-! ### No NaN -/

/-- Settles O28: a code and its distance from RAW_1 stay far below the overflow threshold, and finite
factors, a finite addend and a factor K_UNIT other than 0 make no NaN. -/
theorem noNaNFromAnyCode : Obligations.NoNaNFromAnyCode := by
  unfold Obligations.NoNaNFromAnyCode
  intro c r h
  obtain ⟨-, hpoints⟩ := admitted_finite h
  exact ⟨svalOf_finite c.fmt r, offsetFromFirst_finite (hpoints c.raw1 (by simp)).2 r, isNumber_cal h r,
    isNumber_ucv h (isNumber_cal h r)⟩

/-! ### The unit factor -/

theorem unitFactor_units_pos (f : Format) : 0 < fpUnits f (unitFactor f) := by
  cases f <;> decide +kernel

theorem unitFactor_isPattern (f : Format) : isPattern f (unitFactor f) = true := by
  cases f <;> decide

theorem fpMul_unitFactor_of_finite {f : Format} {p : FpWord} (hp : isFinite f p = true) :
    fpMul f p (unitFactor f) = fl f (fpNegative f p) (fpUnits f p * fpUnits f (unitFactor f)) (2 ^ f.unitBits) := by
  obtain ⟨hfin, hpos⟩ := unitFactor_finite_positive f
  rw [fpMul_of_finite hp hfin, hpos, Bool.xor_false]

theorem fpMul_unitFactor_infinity (f : Format) (a : Bool) :
    fpMul f (fpInfinity f a) (unitFactor f) = fpInfinity f a := by
  obtain ⟨hfin, hpos⟩ := unitFactor_finite_positive f
  rw [fpMul_of_infinite_left (classify_infinity f a) hfin (unitFactor_units_ne_zero f), hpos, Bool.xor_false]

theorem fpMul_unitFactor_fpZero (f : Format) (a : Bool) : fpMul f (fpZero f a) (unitFactor f) = fpZero f a := by
  rw [fpMul_unitFactor_of_finite (isFinite_fpZero f a), fpUnits_fpZero, zero_mul, fl_zero, fpNegative_fpZero]

/-- A positive factor keeps the sign, of zeros and infinities too (R87). -/
theorem fpNegative_fpMul_unitFactor {f : Format} {p : FpWord} (hp : isNaN f p = false) :
    fpNegative f (fpMul f p (unitFactor f)) = fpNegative f p := by
  obtain ⟨hk, hpos⟩ := unitFactor_finite_positive f
  cases hfin : isFinite f p
  · have hclass : classify f p = .infinite (fpNegative f p) := by simp [classify, hp, hfin]
    rw [fpMul_of_infinite_left hclass hk (unitFactor_units_ne_zero f), hpos, Bool.xor_false, fpNegative_fpInfinity]
  · rw [fpMul_unitFactor_of_finite hfin, fl_negative]
    by_cases h0 : fpUnits f p = 0
    · rw [h0, zero_mul, if_pos rfl]
    · rw [if_neg (mul_ne_zero h0 (unitFactor_units_ne_zero f)), units_mul_lt_zero h0 (unitFactor_units_pos f)]

/-- The factor is its own product with 1.0, which is `2 ^ unitBits` units. -/
theorem fpMul_unitFactor_one {f : Format} {p : FpWord} (hp : isFinite f p = true)
    (hunits : fpUnits f p = 2 ^ f.unitBits) : fpMul f p (unitFactor f) = unitFactor f := by
  have h := fl_units (unitFactor_isPattern f) (unitFactor_finite_positive f).1 (unitFactor_units_ne_zero f)
    (fpNegative f p) (Nat.two_pow_pos f.unitBits)
  rwa [fpMul_unitFactor_of_finite hp, hunits, mul_comm, ← Nat.cast_ofNat, ← Nat.cast_pow]

/-- Settles O30: one multiplication by a positive finite factor. -/
theorem unitConversionSpecialValues : Obligations.UnitConversionSpecialValues := by
  unfold Obligations.UnitConversionSpecialValues
  intro c h
  obtain ⟨-, -, -, -, hk⟩ := admitted_iff.mp h
  simp only [ucv, hk]
  refine ⟨fun a => ⟨fpMul_unitFactor_infinity c.fmt a, fpMul_unitFactor_fpZero c.fmt a⟩,
    fun p hp => fpNegative_fpMul_unitFactor hp, fpMul_unitFactor_one ?_ ?_⟩ <;> cases c.fmt <;> decide +kernel

end Sys2Proof.Machine
end

section
/-! The whole conversion (spec/43_conversion_sequence.md): CONV case by case (R100), CONV as the sequence of
the four stages (R101), and what the end-to-end results depend on (R102). -/

namespace Sys2Proof.Machine

/-! ### A command's effect -/

/-- While a fault is latched, no command changes anything (R113). -/
theorem exec_of_ft {s : State} (hft : s.ft = true) (i : Instr) : exec i s = .next s := by
  cases i <;> exact congrArg Host.Outcome.next (unlessHalted_of_ft hft _)

theorem frameFault_eq_none_iff {v : FState} : frameFault v = none ↔ v = .loaded := by
  cases v <;> simp [frameFault]

/-- A command whose source is there writes what its stage writes. -/
theorem exec_of_operandFault_eq_none {s : State} {i : Instr} (hft : s.ft = false) (h : operandFault s i = none) :
    exec i s = .next (commandWrite s i) := by
  cases i
  case dec | conv => exact congrArg Host.Outcome.next (needsFrame_of_loaded hft (frameFault_eq_none_iff.mp h) _)
  case sxt | cal | ucv =>
    exact congrArg Host.Outcome.next (needsValid_of_valid hft (by simpa [operandFault] using h) _)

theorem exec_conv_of_loaded {s : State} (hft : s.ft = false) (hf : s.fstate = .loaded) :
    exec .conv s = .next (s.setResults (decodeFrame s.frame)) :=
  exec_of_operandFault_eq_none hft (frameFault_eq_none_iff.mpr hf)

/-! ### CONV and the sequence -/

theorem stagedConversion_of_ft {s : State} (hft : s.ft = true) : stagedConversion s = .next s := by
  simp only [stagedConversion, andThen, exec_of_ft hft]

/-- What the four stages write in a row is what CONV writes: SXT reads back the code that DEC wrote, CAL the
value that SXT wrote, and UCV the pressure that CAL wrote (R101). -/
theorem commandWrite_sequence (s : State) :
    commandWrite (commandWrite (commandWrite (commandWrite s .dec) .sxt) .cal) .ucv = commandWrite s .conv := by
  simp [commandWrite, State.setResults, codeOf_rawWord]

/-- A stage of the sequence whose source the stages before it have set. -/
theorem andThen_of_operandFault_eq_none {o : Host.Outcome State Fault Refusal} {s : State} {i : Instr}
    (ho : o = .next s) (hft : s.ft = false) (h : operandFault s i = none) :
    andThen o i = .next (commandWrite s i) := by
  rw [ho, andThen, exec_of_operandFault_eq_none hft h]

/-- After DEC no stage faults: the stage before it has set its source valid. -/
theorem stagedConversion_of_loaded {s : State} (hft : s.ft = false) (hf : s.fstate = .loaded) :
    stagedConversion s = .next (commandWrite s .conv) := by
  have hdec := exec_of_operandFault_eq_none (i := .dec) hft (frameFault_eq_none_iff.mpr hf)
  have hsxt := andThen_of_operandFault_eq_none (i := .sxt) hdec hft rfl
  have hcal := andThen_of_operandFault_eq_none (i := .cal) hsxt hft rfl
  have hucv := andThen_of_operandFault_eq_none (i := .ucv) hcal hft rfl
  rw [stagedConversion, hucv, commandWrite_sequence]

/-- Settles O33: CONV writes what the four stages write, and has DEC's source condition. -/
theorem convEqualsTheSequence : Obligations.ConvEqualsTheSequence := by
  unfold Obligations.ConvEqualsTheSequence
  refine fun s => ⟨fun h => ?_, fun hft hf => ?_⟩
  · cases hft : s.ft
    · have hf : s.fstate = .loaded := h.resolve_left (ne_true_of_eq_false hft)
      rw [exec_conv_of_loaded hft hf, stagedConversion_of_loaded hft hf, commandWrite]
    · rw [exec_of_ft hft, stagedConversion_of_ft hft]
  · obtain ⟨hinFlight, hempty⟩ := unreadableFrameFaults s .conv hft (.inr rfl)
    obtain ⟨hinFlight', hempty'⟩ := unreadableFrameFaults s .dec hft (.inl rfl)
    cases hs : s.fstate
    case loaded => exact absurd hs hf
    case inFlight => rw [hinFlight hs, hinFlight' hs]
    case empty => rw [hempty hs, hempty' hs]

/-! ### The results -/

/-- The end-to-end results are functions of the code and the configuration (R102). -/
@[simp] theorem State.setResults_pri (s : State) (r : RawCode) :
    (s.setResults r).pri = cal s.cfg (svalOf s.cfg.fmt r) := rfl

@[simp] theorem State.setResults_sec (s : State) (r : RawCode) :
    (s.setResults r).sec = ucv s.cfg (s.setResults r).pri := rfl

/-- Settles O34: the sample bits determine the code, and code and configuration the results. -/
theorem resultsDependOnSampleBitsOnly : Obligations.ResultsDependOnSampleBitsOnly := by
  unfold Obligations.ResultsDependOnSampleBitsOnly
  intro s s' hcfg hbits hft hft' hf hf'
  have hpri : (s.setResults (decodeFrame s.frame)).pri = (s'.setResults (decodeFrame s'.frame)).pri := by
    rw [State.setResults_pri, State.setResults_pri, hcfg, decodeFrame_congr hbits]
  refine ⟨_, _, exec_conv_of_loaded hft hf, exec_conv_of_loaded hft' hf', State.setResults_pri s _,
    State.setResults_sec s _, hpri, ?_⟩
  rw [State.setResults_sec, State.setResults_sec, hcfg, hpri]

theorem svalOf_eq_i2f_toInt (f : Format) (r : RawCode) : svalOf f r = i2f f r.toInt :=
  congrArg (i2f f) (sint_eq_toInt r)

/-- Settles O32: a latched fault and the two unreadable transfer states stop CONV, and a loaded frame's code goes
through the chain. -/
theorem convWritesAllResults : Obligations.ConvWritesAllResults := by
  unfold Obligations.ConvWritesAllResults
  refine ⟨decodeWord_encode .conv, fun s => ⟨fun hft => exec_of_ft hft .conv, fun hft => ?_, fun hft => ?_,
    fun hft hf => ?_⟩⟩
  · exact (unreadableFrameFaults s .conv hft (.inr rfl)).1
  · exact (unreadableFrameFaults s .conv hft (.inr rfl)).2
  · rw [exec_conv_of_loaded hft hf, ← sextCode_eq_signExtend, ← svalOf_eq_i2f_toInt]
    rfl

end Sys2Proof.Machine
end

section
/-! Faults (spec/60_exceptions.md): what a latched fault stops (R112, R113, R116), which fault a step raises and
under which condition (R111, R114), and the transfer that never completes (R118). -/

namespace Sys2Proof.Machine

/-! ### Commands and stalled transfers -/

/-- Settles O9: each command answers a next state, a faulting one too. -/
theorem everyCommandHasNextState : Obligations.EveryCommandHasNextState :=
  exec_next

/-- Only XFER_DONE and reset end a transfer in flight (R118). -/
theorem Effect.inFlight_kept {e : Event} {s t : State} (h : Effect e s t) (hf : s.fstate = .inFlight)
    (hreset : e ≠ .reset) (hdone : ∀ bytes, e ≠ .xferDone bytes) : t.fstate = .inFlight := by
  cases h with
  | reset => exact absurd rfl hreset
  | completed _ bytes => exact absurd rfl (hdone bytes)
  | started => rfl
  | idle | halted | read | faulted | dec | sxt | cal | ucv | conv => exact hf

/-- Settles O39: taking the turn leaves FSTATE, and of the effects only a completed transfer's and reset's leave
InFlight. -/
theorem stalledTransferStaysInFlight : Obligations.StalledTransferStaysInFlight := by
  unfold Obligations.StalledTransferStaysInFlight
  intro s t hf hstep hreset hdone
  obtain ⟨-, heff⟩ := step_effect hstep
  exact heff.inFlight_kept ((takeEvent_fstate s).trans hf) hreset hdone

/-! ### The fault a step raises -/

/-- A step that sets FT has latched the fault of its event and done nothing else (R112). -/
theorem Effect.latched {e : Event} {s t : State} (h : Effect e s t) (hs : s.ft = false) (ht : t.ft = true) :
    ∃ c, eventFault s e = some c ∧ t = s.latch c := by
  cases h with
  | faulted _ _ c _ hc => exact ⟨c, hc, rfl⟩
  | reset => cases ht
  | idle | halted | read | started | completed | dec | sxt | cal | ucv | conv =>
    exact absurd (hs.symm.trans ht) Bool.false_ne_true

/-- While a fault is latched, a step other than reset does nothing, or only answers a read (R113). -/
theorem Effect.eq_or_read_of_ft {e : Event} {s t : State} (h : Effect e s t) (hft : s.ft = true)
    (hreset : e ≠ .reset) : t = s ∨ ∃ index w k, e = .read index ∧ t = s.answerRead w k := by
  cases h with
  | idle | halted => exact .inl rfl
  | reset => exact absurd rfl hreset
  | read _ index w k => exact .inr ⟨index, w, k, rfl, rfl⟩
  | faulted _ _ _ h | started _ h | completed _ _ h | dec _ _ _ h | sxt _ _ _ h | cal _ _ _ h | ucv _ _ _ h
  | conv _ _ _ h =>
    exact absurd (h.symm.trans hft) Bool.false_ne_true

theorem perform_of_ft {e : Event} {s : State} (hft : s.ft = true) (hreset : e ≠ .reset)
    (hread : ∀ index, e ≠ .read index) : perform e s = .next s := by
  obtain ⟨t, ht⟩ := perform_next e s
  rcases (perform_effect ht).eq_or_read_of_ft hft hreset with rfl | ⟨index, _, _, he, _⟩
  · exact ht
  · exact absurd he (hread index)

/-- The first fault since reset stays the recorded one, through reads too (R116). -/
theorem Effect.first_fault_kept {e : Event} {s t : State} (h : Effect e s t) (hft : s.ft = true)
    (hreset : e ≠ .reset) : t.ft = true ∧ t.cause = s.cause := by
  rcases h.eq_or_read_of_ft hft hreset with rfl | ⟨_, _, _, _, rfl⟩ <;> exact ⟨hft, rfl⟩

/-- Settles O43: a step that sets FT latches its event's fault alone, and a latched fault is not replaced. -/
theorem faultsArePrecise : Obligations.FaultsArePrecise := by
  unfold Obligations.FaultsArePrecise
  intro s t e h
  have heff := perform_effect h
  refine ⟨fun hs ht => ?_, heff.first_fault_kept⟩
  obtain ⟨c, hc, rfl⟩ := heff.latched hs ht
  exact ⟨(eventFault_ne_none hc).1, rfl⟩

/-- Settles O44: nothing but a read and reset has an effect, and only reset's clears FT. -/
theorem haltedUntilReset : Obligations.HaltedUntilReset := by
  unfold Obligations.HaltedUntilReset
  intro s hft
  refine ⟨fun w => perform_of_ft hft (by simp) (by simp), exec_of_ft hft, perform_of_ft hft (by simp) (by simp),
    fun bytes => perform_of_ft hft (by simp) (by simp), fun index w => perform_read_of_specified,
    (status_getLsbD s 6).trans hft, fun e t h ht => ?_, ⟨resetBlock s, rfl, rfl⟩, hft⟩
  by_contra hreset
  have hkept := ((perform_effect h).first_fault_kept hft hreset).1
  exact Bool.false_ne_true (ht.symm.trans hkept)

/-! ### The order in which a fault is chosen -/

/-- Settles O45: a latched fault stops all, an illegal word is seen before any operand, the transfer state decides
between the two frame faults, and the protocol is checked before the length. -/
theorem faultPriority : Obligations.FaultPriority := by
  unfold Obligations.FaultPriority
  refine fun s => ⟨fun hft e => perform_of_ft hft, fun hft w r hw => ?_, fun hft i t hi ht => ?_,
    fun hft hf bytes _ => ⟨_, congrArg Host.Outcome.next (xferDone_of_not_inFlight hft hf bytes), rfl⟩⟩
  · have hillegal : ¬ ∃ i, decodeWord w = .ok i := by simp [hw]
    exact ⟨_, runCommand_of_illegal hillegal s, by rw [hft]; rfl⟩
  · obtain ⟨hinFlight, hempty⟩ := unreadableFrameFaults s i hft hi
    cases hf : s.fstate with
    | inFlight =>
      cases ht.symm.trans (hinFlight hf)
      simp
    | empty =>
      cases ht.symm.trans (hempty hf)
      simp
    | loaded =>
      have hnone : operandFault s i = none := by
        rcases hi with rfl | rfl <;> exact frameFault_eq_none_iff.mpr hf
      cases ht.symm.trans (exec_of_operandFault_eq_none hft hnone)
      rcases hi with rfl | rfl <;> simp [commandWrite, State.setResults, hft]

/-! ### Causes and their raisers -/

/-- The two faults of a legal command, each with its condition (R38, R14). -/
theorem operandFault_eq_some_iff {s : State} {i : Instr} {c : Cause} : operandFault s i = some c ↔
    ((i = .dec ∨ i = .conv) ∧ s.fstate = .inFlight ∧ c = .frameInFlight) ∨
    (((i = .dec ∨ i = .conv) ∧ s.fstate = .empty ∨ i = .sxt ∧ s.rv = false ∨ i = .cal ∧ s.sv = false ∨
      i = .ucv ∧ s.pv = false) ∧ c = .noOperand) := by
  cases i with
  | dec | conv => cases hf : s.fstate <;> simp [operandFault, frameFault, hf, @eq_comm _ c]
  | sxt | cal | ucv => simp [operandFault, @eq_comm _ c]

theorem encode_injective : Function.Injective encode := fun i j h =>
  Except.ok.inj ((decodeWord_encode i).symm.trans (h ▸ decodeWord_encode j))

/-- The steps that raise a fault, each with its condition: legal commands, illegal words and the two transfer
events (R111). -/
theorem eventFault_eq_some_iff {s : State} {e : Event} {c : Cause} : eventFault s e = some c ↔
    (∃ i, e = .command (encode i) ∧ operandFault s i = some c) ∨
    (c = .illegalCommand ∧ ∃ w, e = .command w ∧ ¬ ∃ i, decodeWord w = .ok i) ∨
    (c = .protocol ∧
      ((e = .xferStart ∧ s.fstate = .inFlight) ∨ ∃ bytes, e = .xferDone bytes ∧ s.fstate ≠ .inFlight)) ∨
    (c = .frameLength ∧ ∃ bytes, e = .xferDone bytes ∧ s.fstate = .inFlight ∧ bytes.length ≠ 8) := by
  cases e with
  | idle | reset | read => simp [eventFault]
  | xferStart => simp [eventFault, @eq_comm _ c, and_comm]
  | xferDone bytes => by_cases hf : s.fstate = .inFlight <;> simp [eventFault, hf, @eq_comm _ c, and_comm]
  | command w =>
    cases hw : decodeWord w with
    | ok i =>
      obtain rfl := encode_of_decodeWord hw
      simp [eventFault_command hw, encode_injective.eq_iff, hw]
    | error _ =>
      have hne : ∀ i, w ≠ encode i := by
        rintro i rfl
        cases hw.symm.trans (decodeWord_encode i)
      simp [eventFault, hw, hne, @eq_comm _ c]

/-- FRAME_LENGTH: only in flight is the length looked at (R35). -/
theorem eventFault_eq_frameLength_iff {s : State} {e : Event} : eventFault s e = some .frameLength ↔
    ∃ bytes, e = .xferDone bytes ∧ s.fstate = .inFlight ∧ bytes.length ≠ 8 := by
  simp [eventFault_eq_some_iff, operandFault_eq_some_iff]

/-- FRAME_IN_FLIGHT: the two commands that read the frame (R38). -/
theorem eventFault_eq_frameInFlight_iff {s : State} {e : Event} : eventFault s e = some .frameInFlight ↔
    (e = .command (encode .dec) ∨ e = .command (encode .conv)) ∧ s.fstate = .inFlight := by
  simp [eventFault_eq_some_iff, operandFault_eq_some_iff, and_or_left, or_and_right, exists_or, or_assoc]

/-- ILLEGAL_COMMAND: whatever the state, every word but the five (R49). -/
theorem eventFault_eq_illegalCommand_iff {s : State} {e : Event} : eventFault s e = some .illegalCommand ↔
    ∃ w : Byte, e = .command w ∧ ¬(1 ≤ w.toNat ∧ w.toNat ≤ 5) := by
  simp [eventFault_eq_some_iff, operandFault_eq_some_iff, ← exists_decodeWord_iff_toNat]

/-- NO_OPERAND: each command where its source was not written since reset (R14, R38). -/
theorem eventFault_eq_noOperand_iff {s : State} {e : Event} : eventFault s e = some .noOperand ↔
    ((e = .command (encode .dec) ∨ e = .command (encode .conv)) ∧ s.fstate = .empty) ∨
    (e = .command (encode .sxt) ∧ s.rv = false) ∨ (e = .command (encode .cal) ∧ s.sv = false) ∨
    (e = .command (encode .ucv) ∧ s.pv = false) := by
  simp [eventFault_eq_some_iff, operandFault_eq_some_iff, and_or_left, or_and_right, exists_or, or_assoc]

/-- PROTOCOL: a start during a transfer, or a completion outside one (R33, R34). -/
theorem eventFault_eq_protocol_iff {s : State} {e : Event} : eventFault s e = some .protocol ↔
    (e = .xferStart ∧ s.fstate = .inFlight) ∨ ∃ bytes, e = .xferDone bytes ∧ s.fstate ≠ .inFlight := by
  simp [eventFault_eq_some_iff, operandFault_eq_some_iff]

/-- FAULT tells the causes apart (R16, R111). -/
theorem faultWord_latch_eq_iff (s : State) (c d : Cause) :
    faultWord (s.latch c) = 0#28 ++ causeCode d ↔ c = d := by
  rw [faultWord, State.latch_cause]
  cases c <;> cases d <;> decide

/-- A cause other than NONE has a code from 1 to 5 (R111). -/
theorem faultWord_latch_range (s : State) {c : Cause} (hc : c ≠ .none) :
    1 ≤ (faultWord (s.latch c)).toNat ∧ (faultWord (s.latch c)).toNat ≤ 5 := by
  rw [faultWord, State.latch_cause]
  cases c with
  | none => exact absurd rfl hc
  | frameLength | frameInFlight | illegalCommand | noOperand | protocol => decide

/-- Settles O46: a faulting step latches its event's fault, and FAULT shows that fault's code. -/
theorem causesAndTheirRaisers : Obligations.CausesAndTheirRaisers := by
  unfold Obligations.CausesAndTheirRaisers
  intro s t e hs h ht
  obtain ⟨c, hc, rfl⟩ := (perform_effect h).latched hs ht
  have shows (d : Cause) : faultWord (s.latch c) = 0#28 ++ causeCode d ↔ eventFault s e = some d := by
    rw [faultWord_latch_eq_iff, hc, Option.some_inj]
  exact ⟨(shows .frameLength).trans eventFault_eq_frameLength_iff,
    (shows .frameInFlight).trans eventFault_eq_frameInFlight_iff,
    (shows .illegalCommand).trans eventFault_eq_illegalCommand_iff,
    (shows .noOperand).trans eventFault_eq_noOperand_iff, (shows .protocol).trans eventFault_eq_protocol_iff,
    faultWord_latch_range s (eventFault_ne_none hc).1⟩

end Sys2Proof.Machine
end

section
/-! Reset and hazards (spec/70_reset_and_hazards.md), step by step: a loaded frame stays (R138), a completion that
reset cut off faults (R131), a transfer leaves the results stale (R137), and nothing but a reset changes them once
the host has stopped (R140). -/

namespace Sys2Proof.Machine

/-! ### Loaded and empty frames -/

/-- Settles O40: no effect but XFER_START's and reset's takes a loaded frame away, and DEC writes only what a DEC
before it has written. -/
theorem loadedFrameStaysUntilNextStart : Obligations.LoadedFrameStaysUntilNextStart := by
  unfold Obligations.LoadedFrameStaysUntilNextStart
  refine ⟨fun s t hl hstep hstart hreset => ?_, fun s t hft hl h => ?_⟩
  · obtain ⟨-, heff⟩ := step_effect hstep
    rw [← takeEvent_frame s]
    exact heff.loaded_kept ((takeEvent_fstate s).trans hl) hstart hreset
  · cases h.symm.trans (exec_dec_of_loaded hft hl)
    exact ⟨rfl, exec_dec_of_loaded hft hl⟩

/-- Only XFER_START leads out of Empty (R33, R131). -/
theorem Effect.empty_kept {e : Event} {s t : State} (h : Effect e s t) (hf : s.fstate = .empty)
    (hstart : e ≠ .xferStart) : t.fstate = .empty := by
  cases h with
  | reset => rfl
  | started => exact absurd rfl hstart
  | completed _ _ _ hinFlight => cases hf.symm.trans hinFlight
  | idle | halted | read | faulted | dec | sxt | cal | ucv | conv => exact hf

/-- A completion that no start preceded, on the machine (R34). -/
theorem perform_xferDone_of_empty {s : State} (hft : s.ft = false) (hf : s.fstate = .empty) (bytes : List Byte) :
    perform (.xferDone bytes) s = .next (s.latch .protocol) :=
  congrArg Host.Outcome.next (xferDone_of_not_inFlight hft (hf ▸ nofun) bytes)

/-- Settles O42: reset sets FSTATE to Empty and keeps the pending XFER_DONE, which faults there, and only an XFER_START
leads out of Empty. -/
theorem lateCompletionAfterResetFaults : Obligations.LateCompletionAfterResetFaults := by
  unfold Obligations.LateCompletionAfterResetFaults
  refine ⟨fun s bytes rest turns hcfg _ hs hq => ?_, fun s t hf hstep hstart => ?_,
    fun s bytes hft hf => perform_xferDone_of_empty hft hf bytes⟩
  · obtain ⟨-, hreset, -⟩ := stepPerformsTheTurn s _ hcfg
    let t := resetBlock { s with schedule := .environment :: turns }
    obtain ⟨-, -, -, -, hdone, -⟩ := stepPerformsTheTurn t turns hcfg
    have hfault := (hdone bytes rest rfl hq).trans (perform_xferDone_of_empty rfl rfl bytes)
    exact ⟨t, _, hreset hs, hfault, rfl, rfl, rfl⟩
  · obtain ⟨-, heff⟩ := step_effect hstep
    exact heff.empty_kept ((takeEvent_fstate s).trans hf) hstart

/-! ### What leaves the results as they are -/

/-- `t` has the result registers and the valid bits of `s`. -/
def State.sameResults (s t : State) : Prop :=
  t.raw = s.raw ∧ t.sraw = s.sraw ∧ t.sval = s.sval ∧ t.pri = s.pri ∧ t.sec = s.sec ∧
    t.rv = s.rv ∧ t.sv = s.sv ∧ t.pv = s.pv ∧ t.uv = s.uv

/-- Only commands and reset change the results (R137). -/
theorem Effect.sameResults {e : Event} {s t : State} (h : Effect e s t) (hreset : e ≠ .reset)
    (hcommand : ∀ w, e ≠ .command w) : s.sameResults t := by
  cases h with
  | reset => exact absurd rfl hreset
  | dec _ w | sxt _ w | cal _ w | ucv _ w | conv _ w => exact absurd rfl (hcommand w)
  | idle | halted | read | faulted | started | completed => exact ⟨rfl, rfl, rfl, rfl, rfl, rfl, rfl, rfl, rfl⟩

/-- A transfer's event changes the frame buffer, or latches a fault, or does nothing. -/
theorem Effect.transfer_writes_only_frame_and_fault {e : Event} {s t : State} (h : Effect e s t)
    (he : e = .xferStart ∨ ∃ bytes, e = .xferDone bytes) :
    t = { s with fstate := t.fstate, frame := t.frame, ft := t.ft, cause := t.cause } := by
  cases h with
  | halted | faulted | started | completed => rfl
  | idle | reset | read | dec | sxt | cal | ucv | conv => simp at he

/-- Settles O48: neither the transfer's effects nor a fault latched touch the results. -/
theorem eventsLeaveResultsStale : Obligations.EventsLeaveResultsStale := by
  unfold Obligations.EventsLeaveResultsStale
  intro s t e he h
  exact (perform_effect h).transfer_writes_only_frame_and_fault he

/-! ### The host has stopped -/

/-- A command or a read arrives only in a turn of the host, and only while the host has a step left (R39). -/
theorem nextEvent_of_hostStopped {s : State} (h : s.hostStopped) :
    (∀ w, nextEvent s ≠ .command w) ∧ ∀ index, nextEvent s ≠ .read index := by
  match hs : s.schedule with
  | [] => simp [nextEvent, hs]
  | .reset :: turns => simp [nextEvent, hs]
  | .host :: turns =>
    have hq : s.hostQueue = [] := h.resolve_right (by simp [hs])
    simp [nextEvent, hs, hq]
  | .environment :: turns =>
    simp only [nextEvent, hs]
    split <;> simp

/-- A host that has stopped has no step and no turn more after the next turn. -/
theorem hostStopped_of_step {s t : State} (h : s.hostStopped) (hstep : step s = .next t) : t.hostStopped := by
  obtain ⟨hschedule, hhost, -⟩ := eachAgentsOrderIsKept s t hstep
  rw [State.hostStopped, hschedule, hhost]
  refine h.imp (fun hq => ?_) fun hturns hmem => hturns (List.mem_of_mem_tail hmem)
  rw [hq, List.tail_nil, ite_self]

/-- Settles O60: no command arrives any more, and of what arrives only a reset changes the results. -/
theorem endedRunStaysEnded : Obligations.EndedRunStaysEnded := by
  unfold Obligations.EndedRunStaysEnded
  intro s t h hstep
  obtain ⟨hcommand, hread⟩ := nextEvent_of_hostStopped h
  refine ⟨hostStopped_of_step h hstep, hcommand, hread, fun hreset => ?_⟩
  obtain ⟨-, heff⟩ := step_effect hstep
  obtain ⟨host, env, turns, hturn⟩ := takeEvent_eq_setInputs s
  rw [hturn] at heff
  exact heff.sameResults hreset hcommand

end Sys2Proof.Machine
end

section
/-! Freshness (spec/70_reset_and_hazards.md R137, R140): a fresh result is the function of the frame now in FRAME,
after every step and over a whole run, and when a run has read the most recent frame. -/

namespace Sys2Proof.Machine

/-! ### Freshness over a step -/

theorem Fresh.nothing_holds (s : State) : Fresh.nothing.holds s := by
  simp [Fresh.holds, Fresh.nothing]

theorem Fresh.after_command {w : Byte} {i : Instr} (hw : decodeWord w = .ok i) (f : Fresh) :
    f.after (.command w) = f.command i := by
  simp [Fresh.after, hw]

/-- A step that left no fault makes of the fresh results what `Fresh.after` says: a stage whose source is fresh
writes the function of the frame. -/
theorem Effect.fresh_holds {e : Event} {s t : State} {f : Fresh} (heff : Effect e s t) (h : f.holds s)
    (ht : t.ft = false) : (f.after e).holds t := by
  have ⟨hraw, hsigned, hprimary, hsecondary⟩ := h
  cases heff with
  | idle | read | started => exact h
  | reset | completed => exact Fresh.nothing_holds _
  | halted _ _ hft => cases ht.symm.trans hft
  | faulted => cases ht
  | dec _ _ hw =>
    rw [Fresh.after_command hw]
    exact ⟨fun _ => rfl, hsigned, hprimary, hsecondary⟩
  | sxt _ _ hw =>
    rw [Fresh.after_command hw]
    refine ⟨hraw, fun hfresh => ?_, hprimary, hsecondary⟩
    have hcode : codeOf s.raw = decodeFrame s.frame := by rw [hraw hfresh, codeOf_rawWord]
    exact ⟨congrArg sextCode hcode, congrArg (svalOf s.cfg.fmt) hcode⟩
  | cal _ _ hw =>
    rw [Fresh.after_command hw]
    exact ⟨hraw, hsigned, fun hfresh => congrArg (Machine.cal s.cfg) (hsigned hfresh).2, hsecondary⟩
  | ucv _ _ hw =>
    rw [Fresh.after_command hw]
    exact ⟨hraw, hsigned, hprimary, fun hfresh => congrArg (Machine.ucv s.cfg) (hprimary hfresh)⟩
  | conv _ _ hw =>
    rw [Fresh.after_command hw]
    exact ⟨fun _ => rfl, fun _ => ⟨rfl, rfl⟩, fun _ => rfl, fun _ => rfl⟩

/-- A step that left a fault changed neither FRAME nor a result (R112, R113). -/
theorem Effect.fresh_kept {e : Event} {s t : State} {f : Fresh} (heff : Effect e s t) (h : f.holds s)
    (ht : t.ft = true) : f.holds t := by
  cases heff with
  | idle | read | halted | faulted => exact h
  | reset => cases ht
  | started _ hft | completed _ _ hft | dec _ _ _ hft | sxt _ _ _ hft | cal _ _ _ hft | ucv _ _ _ hft
  | conv _ _ _ hft => cases hft.symm.trans ht

theorem Fresh.holds_takeEvent {f : Fresh} {s : State} (h : f.holds s) : f.holds (takeEvent s) := by
  obtain ⟨host, env, turns, heq⟩ := takeEvent_eq_setInputs s
  rw [heq]
  exact h

/-- Settles O57: a step takes a turn, which changes the inputs only, and performs one effect. -/
theorem freshResultsAreOfTheLoadedFrame : Obligations.FreshResultsAreOfTheLoadedFrame := by
  unfold Obligations.FreshResultsAreOfTheLoadedFrame
  intro f s t h hstep
  obtain ⟨-, heff⟩ := step_effect hstep
  exact ⟨heff.fresh_holds (Fresh.holds_takeEvent h), heff.fresh_kept (Fresh.holds_takeEvent h)⟩

/-- By induction over the run: out of a halted state only a reset leads, and it leaves nothing fresh (R113). -/
theorem run_fresh_holds {c : Config} {es : List Event} {t : State} (h : Run c es t) :
    t.ft = false → (Fresh.over es).holds t := by
  refine run_induction (P := fun es t => t.ft = false → (Fresh.over es).holds t)
    (fun _ _ _ _ _ => Fresh.nothing_holds _) (fun es s t _ ih hstep ht => ?_) h
  rw [over_snoc]
  cases hs : s.ft with
  | false => exact (freshResultsAreOfTheLoadedFrame _ s t (ih hs) hstep).1 ht
  | true =>
    obtain ⟨-, heff⟩ := step_effect hstep
    have hreset : nextEvent s = .reset := by
      by_contra hne
      cases ht.symm.trans (heff.first_fault_kept ((takeEvent_ft s).trans hs) hne).1
    rw [hreset]
    exact Fresh.nothing_holds t

/-! ### The events after the last XFER_DONE -/

/-- The last XFER_DONE splits the events in those before and those after it. -/
theorem sinceLastTransfer_split {es after : List Event} {bytes : List Byte}
    (h : sinceLastTransfer es = some (bytes, after)) :
    (∃ before, es = before ++ .xferDone bytes :: after) ∧ ∀ bytes', .xferDone bytes' ∉ after := by
  induction es using List.reverseRecOn generalizing after with
  | nil => cases h
  | append_singleton es e ih =>
    rw [sinceLastTransfer_snoc] at h
    by_cases hdone : ∃ bytes', e = .xferDone bytes'
    · obtain ⟨_, rfl⟩ := hdone
      cases h
      exact ⟨⟨es, rfl⟩, fun _ => List.not_mem_nil⟩
    · rw [not_exists] at hdone
      rw [transferAfter_of_ne hdone, Option.map_eq_some_iff] at h
      obtain ⟨⟨_, after⟩, hes, rfl, rfl⟩ := h
      obtain ⟨⟨before, rfl⟩, hnone⟩ := ih hes
      refine ⟨⟨before, by simp⟩, fun bytes' => ?_⟩
      simpa [hnone] using Ne.symm (hdone bytes')

/-- The last XFER_DONE left nothing fresh, so freshness is that of the events after it (R137). -/
theorem over_eq_over_after {es after : List Event} {bytes : List Byte}
    (h : sinceLastTransfer es = some (bytes, after)) : Fresh.over es = Fresh.over after := by
  obtain ⟨⟨before, rfl⟩, -⟩ := sinceLastTransfer_split h
  simp [Fresh.over, Fresh.after]

/-! ### Fresh results and conversions -/

/-- A CONV, or the commands of these stages, the last stage first, in their order (log entry 18). -/
def convertsThrough (stages : List Instr) (es : List Event) : Prop :=
  .command (encode .conv) ∈ es ∨ (stages.reverse.map fun i => Event.command (encode i)).Sublist es

theorem hasConversion_iff (es : List Event) : hasConversion es ↔ convertsThrough [.ucv, .cal, .sxt, .dec] es :=
  Iff.rfl

theorem convertsThrough_nil (es : List Event) : convertsThrough [] es := .inr (List.nil_sublist es)

/-- What passes a stage has passed the stage before it. -/
theorem convertsThrough_of_cons {i : Instr} {stages : List Instr} {es : List Event}
    (h : convertsThrough (i :: stages) es) : convertsThrough stages es := by
  refine h.imp_right fun hs => List.Sublist.trans ?_ hs
  rw [List.reverse_cons, List.map_append]
  exact List.sublist_append_left _ _

/-- One more event is a CONV, or the last stage's command after the stages before it, or adds nothing. -/
theorem convertsThrough_snoc (i : Instr) (stages : List Instr) (es : List Event) (e : Event) :
    convertsThrough (i :: stages) (es ++ [e]) ↔ convertsThrough (i :: stages) es ∨
      e = .command (encode .conv) ∨ e = .command (encode i) ∧ convertsThrough stages es := by
  have hlast (l : List Event) : (l ++ [Event.command (encode i)]).Sublist (es ++ [e]) ↔
      (l ++ [Event.command (encode i)]).Sublist es ∨ e = .command (encode i) ∧ l.Sublist es := by
    rw [← List.reverse_sublist, ← List.reverse_sublist (l₂ := es), ← List.reverse_sublist (l₁ := l)]
    simp [List.cons_sublist_cons', eq_comm]
  simp only [convertsThrough, List.reverse_cons, List.map_append, List.map_singleton, hlast, List.mem_append,
    List.mem_singleton, eq_comm (b := e)]
  tauto

/-- A CONV passes every stage, a stage's own command passes it where the stages before it were, and no other
command changes it. -/
theorem convertsThrough_command (i j : Instr) (stages : List Instr) (es : List Event) :
    convertsThrough (i :: stages) (es ++ [.command (encode j)]) ↔
      j = .conv ∨ if j = i then convertsThrough stages es else convertsThrough (i :: stages) es := by
  have hbefore := convertsThrough_of_cons (i := i) (stages := stages) (es := es)
  rw [convertsThrough_snoc, Event.command.injEq, Event.command.injEq, encode_injective.eq_iff,
    encode_injective.eq_iff]
  split_ifs <;> tauto

/-- Each flag says that the events convert through its stage. -/
structure Fresh.tracks (f : Fresh) (es : List Event) : Prop where
  raw : f.raw = true ↔ convertsThrough [.dec] es
  signed : f.signed = true ↔ convertsThrough [.sxt, .dec] es
  primary : f.primary = true ↔ convertsThrough [.cal, .sxt, .dec] es
  secondary : f.secondary = true ↔ convertsThrough [.ucv, .cal, .sxt, .dec] es

/-- A stage that runs is as fresh as its source. -/
theorem Fresh.tracks.command {f : Fresh} {es : List Event} (h : f.tracks es) (i : Instr) :
    (f.command i).tracks (es ++ [.command (encode i)]) := by
  obtain ⟨hraw, hsigned, hprimary, hsecondary⟩ := h
  constructor <;> rw [convertsThrough_command]
  case raw => cases i <;> simp [Fresh.command, hraw, convertsThrough_nil]
  case signed => cases i <;> simp [Fresh.command, hsigned, hraw]
  case primary => cases i <;> simp [Fresh.command, hprimary, hsigned]
  case secondary => cases i <;> simp [Fresh.command, hsecondary, hprimary]

theorem Fresh.after_of_not_command {e : Event} (hreset : e ≠ .reset) (hdone : ∀ bytes, e ≠ .xferDone bytes)
    (hcommand : ∀ i, e ≠ .command (encode i)) (f : Fresh) : f.after e = f := by
  cases e with
  | idle | read | xferStart => rfl
  | reset => exact absurd rfl hreset
  | xferDone bytes => exact absurd rfl (hdone bytes)
  | command w =>
    cases hw : decodeWord w with
    | ok i => exact absurd (congrArg Event.command (encode_of_decodeWord hw).symm) (hcommand i)
    | error r => simp [Fresh.after, hw]

theorem Fresh.tracks.other {f : Fresh} {es : List Event} (h : f.tracks es) {e : Event}
    (hcommand : ∀ i, e ≠ .command (encode i)) : f.tracks (es ++ [e]) := by
  obtain ⟨hraw, hsigned, hprimary, hsecondary⟩ := h
  constructor <;> simpa [convertsThrough_snoc, hcommand]

/-- Without a reset and an XFER_DONE a result is fresh exactly if the events convert through its stage. -/
theorem over_tracks {es : List Event} (hreset : .reset ∉ es) (hdone : ∀ bytes, .xferDone bytes ∉ es) :
    (Fresh.over es).tracks es := by
  induction es using List.reverseRecOn with
  | nil => constructor <;> simp [Fresh.nothing, convertsThrough]
  | append_singleton es e ih =>
    simp only [List.mem_append, List.mem_singleton, not_or, forall_and, eq_comm (b := e)] at hreset hdone
    obtain ⟨hreset, hlastReset⟩ := hreset
    obtain ⟨hdone, hlastDone⟩ := hdone
    have htracks := ih hreset hdone
    rw [over_snoc]
    by_cases hcommand : ∃ i, e = .command (encode i)
    · obtain ⟨i, rfl⟩ := hcommand
      rw [Fresh.after_command (decodeWord_encode i)]
      exact htracks.command i
    · rw [not_exists] at hcommand
      rw [Fresh.after_of_not_command hlastReset hlastDone hcommand]
      exact htracks.other hcommand

/-! ### Where a run's results come from -/

/-- FRAME holds what the last XFER_DONE delivered, and no reset came after it. -/
def fromLastTransfer (es : List Event) (s : State) : Prop :=
  ∃ bytes after m, sinceLastTransfer es = some (bytes, after) ∧ .reset ∉ after ∧ bytes.length = 8 ∧
    Memory.wf m = true ∧ s.frame = m.writeFrame bytes

/-- An event that is no reset and no XFER_DONE, and leaves FRAME. -/
theorem fromLastTransfer.snoc {es : List Event} {e : Event} {s t : State} (h : fromLastTransfer es s)
    (hreset : e ≠ .reset) (hdone : ∀ bytes, e ≠ .xferDone bytes) (hframe : t.frame = s.frame) :
    fromLastTransfer (es ++ [e]) t := by
  obtain ⟨bytes, after, m, hsince, hnone, hlength, hwf, heq⟩ := h
  refine ⟨bytes, after ++ [e], m, ?_, ?_, hlength, hwf, hframe.trans heq⟩
  · rw [sinceLastTransfer_snoc, transferAfter_of_ne hdone, hsince]
    rfl
  · simpa [hnone] using hreset.symm

/-- A frame is loaded, or has been decoded since reset. -/
def State.hadFrame (s : State) : Prop := s.fstate = .loaded ∨ s.rv = true

/-- Only the completed transfer gives the block a frame, and reset takes it away with all that came of it. -/
theorem Effect.fromLastTransfer {es : List Event} {e : Event} {s t : State} (heff : Effect e s t)
    (hwf : Memory.wf s.frame = true) (h : s.ft = false → s.hadFrame → Machine.fromLastTransfer es s)
    (ht : t.ft = false) (hhad : t.hadFrame) : Machine.fromLastTransfer (es ++ [e]) t := by
  cases heff with
  | reset => rcases hhad with hhad | hhad <;> cases hhad
  | halted _ _ hft => cases ht.symm.trans hft
  | faulted => cases ht
  | completed _ bytes _ _ hb =>
    exact ⟨bytes, [], s.frame, by simp [transferAfter], List.not_mem_nil, hb, hwf, rfl⟩
  | started => exact (h ht (.inr (hhad.resolve_left nofun))).snoc nofun nofun rfl
  | idle | read | sxt | cal | ucv => exact (h ht hhad).snoc nofun nofun rfl
  | dec _ _ _ _ hf | conv _ _ _ _ hf => exact (h ht (.inl hf)).snoc nofun nofun rfl

theorem run_fromLastTransfer {c : Config} {es : List Event} {t : State} (h : Run c es t) :
    t.ft = false → t.hadFrame → fromLastTransfer es t := by
  refine run_induction (P := fun es t => t.ft = false → t.hadFrame → fromLastTransfer es t)
    (fun _ _ _ _ _ hhad => ?_) (fun es s t hrun ih hstep => ?_) h
  · rcases hhad with hhad | hhad <;> cases hhad
  · obtain ⟨-, heff⟩ := step_effect hstep
    obtain ⟨-, -, -, -, -, -, hwf⟩ := takeEvent_inv (run_reachable hrun).inv
    refine heff.fromLastTransfer hwf ?_
    obtain ⟨host, env, turns, heq⟩ := takeEvent_eq_setInputs s
    rw [heq]
    exact ih

/-- A stage's result is valid only where its source is (R14). -/
structure State.validInOrder (s : State) : Prop where
  signed : s.sv = true → s.rv = true
  primary : s.pv = true → s.sv = true
  secondary : s.uv = true → s.pv = true

theorem Effect.validInOrder {e : Event} {s t : State} (heff : Effect e s t) (h : s.validInOrder) :
    t.validInOrder := by
  have ⟨hsigned, hprimary, hsecondary⟩ := h
  cases heff with
  | idle | halted | read | faulted | started | completed => exact ⟨hsigned, hprimary, hsecondary⟩
  | reset => exact ⟨nofun, nofun, nofun⟩
  | dec => exact ⟨fun _ => rfl, hprimary, hsecondary⟩
  | sxt _ _ _ _ hv => exact ⟨fun _ => hv, fun _ => rfl, hsecondary⟩
  | cal _ _ _ _ hv => exact ⟨hsigned, fun _ => hv, fun _ => rfl⟩
  | ucv _ _ _ _ hv => exact ⟨hsigned, hprimary, fun _ => hv⟩
  | conv => exact ⟨fun _ => rfl, fun _ => rfl, fun _ => rfl⟩

theorem Reachable.validInOrder {s : State} (h : Reachable s) : s.validInOrder := by
  induction h with
  | start => exact ⟨nofun, nofun, nofun⟩
  | step s t _ hstep ih =>
    obtain ⟨-, heff⟩ := step_effect hstep
    refine heff.validInOrder ?_
    obtain ⟨host, env, turns, heq⟩ := takeEvent_eq_setInputs s
    rw [heq]
    exact ⟨ih.signed, ih.primary, ih.secondary⟩

/-- Where UV is set so is every other valid bit. -/
theorem run_valid_of_uv {c : Config} {es : List Event} {t : State} (h : Run c es t) (huv : t.uv = true) :
    t.rv = true ∧ t.sv = true ∧ t.pv = true := by
  obtain ⟨hsigned, hprimary, hsecondary⟩ := (run_reachable h).validInOrder
  have hpv := hsecondary huv
  have hsv := hprimary hpv
  exact ⟨hsigned hsv, hsv, hpv⟩

/-! ### Freshness over a run -/

/-- Where UV is set, the run's fresh results are those converted since the last XFER_DONE, whose bytes FRAME holds. -/
theorem run_tracks_of_uv {c : Config} {es : List Event} {t : State} (h : Run c es t) (hft : t.ft = false)
    (huv : t.uv = true) : ∃ bytes after m, sinceLastTransfer es = some (bytes, after) ∧
      (Fresh.over es).tracks after ∧ bytes.length = 8 ∧ Memory.wf m = true ∧ t.frame = m.writeFrame bytes := by
  obtain ⟨hrv, -, -⟩ := run_valid_of_uv h huv
  obtain ⟨bytes, after, m, hsince, hreset, hframe⟩ := run_fromLastTransfer h hft (.inr hrv)
  refine ⟨bytes, after, m, hsince, ?_, hframe⟩
  rw [over_eq_over_after hsince]
  exact over_tracks hreset (sinceLastTransfer_split hsince).2

theorem convertsMostRecentFrame_iff {es after : List Event} {bytes : List Byte}
    (h : sinceLastTransfer es = some (bytes, after)) : convertsMostRecentFrame es ↔ hasConversion after := by
  simp [convertsMostRecentFrame, h]

/-- Settles O58: freshness holds after every step of the run, and SEC is fresh where the commands since the last
XFER_DONE convert through all four stages. -/
theorem freshnessOverARun : Obligations.FreshnessOverARun := by
  unfold Obligations.FreshnessOverARun
  refine fun c es t h hft => ⟨run_fresh_holds h hft, fun huv => ?_⟩
  obtain ⟨bytes, after, m, hsince, htracks, -⟩ := run_tracks_of_uv h hft huv
  rw [convertsMostRecentFrame_iff hsince, hasConversion_iff]
  exact htracks.secondary

/-- A full conversion makes every result fresh. -/
theorem Fresh.tracks.eq_all_of_hasConversion {f : Fresh} {es : List Event} (h : f.tracks es)
    (hconv : hasConversion es) : f = ⟨true, true, true, true⟩ := by
  have hsecondary := (hasConversion_iff es).mp hconv
  have hprimary := convertsThrough_of_cons hsecondary
  have hsigned := convertsThrough_of_cons hprimary
  have hraw := convertsThrough_of_cons hsigned
  rw [Fresh.mk.injEq]
  exact ⟨h.raw.mpr hraw, h.signed.mpr hsigned, h.primary.mpr hprimary, h.secondary.mpr hsecondary⟩

/-! ### A good run -/

theorem run_cfg {c : Config} {es : List Event} {t : State} (h : Run c es t) : t.cfg = c :=
  run_induction (P := fun _ t => t.cfg = c) (fun _ _ _ _ => rfl)
    (fun _ s t _ ih hstep => (configurationNeverChanges s t hstep).trans ih) h

/-- The code of a stored frame depends on its bytes alone (R61, R34). -/
theorem decodeFrame_writeFrame_congr {m m' : Memory} (hwf : Memory.wf m = true) (hwf' : Memory.wf m' = true)
    (bytes : List Byte) : decodeFrame (m.writeFrame bytes) = decodeFrame (m'.writeFrame bytes) := by
  refine decodeFrame_congr fun i k _ _ _ => ?_
  rw [Memory.read_writeFrame hwf, Memory.read_writeFrame hwf']

theorem rawWord_setWidth (r : RawCode) : (rawWord r).setWidth 64 = r.setWidth 64 :=
  BitVec.setWidth_setWidth (by decide)

/-- Settles O59: every result is fresh and valid, and FRAME holds the bytes of the last XFER_DONE. -/
theorem goodRunShowsTheMostRecentFrame : Obligations.GoodRunShowsTheMostRecentFrame := by
  unfold Obligations.GoodRunShowsTheMostRecentFrame
  rintro c es t h ⟨hft, huv, hrecent⟩
  obtain ⟨bytes, after, m, hsince, htracks, hlength, hwf, hframe⟩ := run_tracks_of_uv h hft huv
  have hall := htracks.eq_all_of_hasConversion ((convertsMostRecentFrame_iff hsince).mp hrecent)
  have hholds := run_fresh_holds h hft
  rw [hall, Fresh.holds, run_cfg h, hframe, decodeFrame_writeFrame_congr hwf (m' := []) rfl] at hholds
  obtain ⟨hraw, hsigned, hprimary, hsecondary⟩ := hholds
  obtain ⟨hsraw, hsval⟩ := hsigned rfl
  obtain ⟨hrv, hsv, hpv⟩ := run_valid_of_uv h huv
  refine ⟨bytes, after, hsince, hlength, ?_, ?_, ?_, ?_, ?_⟩
  · rw [specifiedWord, if_pos hrv, hraw rfl, rawWord_setWidth]
  · rw [specifiedWord, if_pos hsv, hsraw]
  · rw [specifiedWord, if_pos hsv, hsval]
  · rw [specifiedWord, if_pos hpv, hprimary rfl]
  · rw [specifiedWord, if_pos huv, hsecondary rfl]

end Sys2Proof.Machine
end
